-- ==== Sys2Proof/Word.lean ====
section
/-!
DEFINITION. The machine's words, from `00_scope.md` rules R9 to R11: the widths the spec gives its data. A name here
is a width and no more; fields of a word are taken in `Decode.lean`, responses are packed in `Machine/Operands.lean`.
-/

namespace Sys2Proof

/-- A word of the command port or of the response port (rules R10, R40, R41). -/
abbrev Word := BitVec 32

/-- A sample: one byte of a plane (rules R9, R50). -/
abbrev Byte := BitVec 8

/-- Half a port word, and a descriptor's grid width or height (rules R10, R54, R73). -/
abbrev Half := BitVec 16

/-- A quantized coefficient: the 16 bits of an i16, read as a number with `BitVec.toInt` (rules R9, R78). -/
abbrev Coef := BitVec 16

/-- A slot index as a command carries it (rule R71). -/
abbrev Index := BitVec 8

/-- A plane offset, a plane length or a write cursor: 40 bits, unsigned (rules R10, R22, R50). -/
abbrev Offset := BitVec 40

/-- A quantization table: 64 unsigned 16-bit entries (rules R9, R26, R38). -/
abbrev QTable := Vector (BitVec 16) 64

/-- The 64 coefficients of one block, position by position (rules R9, R125, R129). -/
abbrev CoefBlock := Vector Coef 64

/-- The 64 samples of one block; position `k` is block row `k / 8`, block column `k % 8` (rules R9, R128). -/
abbrev SampleBlock := Vector Byte 64

end Sys2Proof
end

