-- ==== Sys2Proof/Syntax.lean ====
section
/-!
DEFINITION. The unit's commands, one constructor for each row of `spec/opcode_table.json` (`30_encoding.md` rule R86).
-/

namespace Sys2Proof

/-- A command (rule R18: the unit's "instruction"), with its operands as rule R80's decoder gives them. -/
inductive Instr where
  /-- START: open a session on a slot, with the descriptor and the quantization table (rules R101, R104). -/
  | start (idx : Index) (w h : Half) (v : BitVec 8) (qt : QTable)
  /-- APPEND_ROW: one MCU row of coefficients; `N` of rule R75 is the number of them (rule R132). -/
  | appendRow (idx : Index) (coefs : List Coef)
  /-- GET_RESULT: hand the slot's plane to the host (rule R150). -/
  | getResult (idx : Index)
  deriving DecidableEq, Repr

end Sys2Proof
end

