-- ==== Sys2Proof/WellFormed.lean ====
section
/-!
DEFINITION. Which commands have an encoding. A field's width is in its type, so the one thing to check is that an
APPEND_ROW's coefficient count fits the 32-bit field `N` (`30_encoding.md` rule R75).
-/

namespace Sys2Proof

/-- The command can be written on the command port: an APPEND_ROW carries fewer than 2^32 coefficients (rule R75).
An index with no slot is no encoding error (rule R80), so it is not checked here. -/
def Instr.wf : Instr → Bool
  | .start _ _ _ _ _ => true
  | .appendRow _ coefs => coefs.length < 2 ^ 32
  | .getResult _ => true

end Sys2Proof
end

