-- ==== Sys2Proof/Decode.lean ====
section
/-!
DEFINITION. The command decoder of `30_encoding.md` rules R71 to R85, total on any words, and the encoder written from
the same tables.
-/

namespace Sys2Proof

/-! ### Opcodes and fields -/

/-- Rule R72. -/
def opStart : BitVec 8 := 0x01#8
/-- Rule R72. -/
def opAppendRow : BitVec 8 := 0x02#8
/-- Rule R72. -/
def opGetResult : BitVec 8 := 0x03#8

/-- Every other value of `op` is reserved (rules R72, R84). -/
def legalOp (op : BitVec 8) : Bool := op == opStart || op == opAppendRow || op == opGetResult

/-- `op = w0[7:0]` (rule R71). -/
def fieldOp (w : Word) : BitVec 8 := w.extractLsb' 0 8
/-- `idx = w0[15:8]` (rule R71). -/
def fieldIdx (w : Word) : Index := w.extractLsb' 8 8
/-- `rsv0 = w0[31:16]` (rule R71). -/
def fieldRsv0 (w : Word) : BitVec 16 := w.extractLsb' 16 16
/-- `w[15:0]`: item `2k` of a word that carries two 16-bit items (rules R54, R73, R74, R76). -/
def lowHalf (w : Word) : Half := w.extractLsb' 0 16
/-- `w[31:16]`: item `2k+1` of a word that carries two 16-bit items (rules R54, R73, R74, R76). -/
def highHalf (w : Word) : Half := w.extractLsb' 16 16
/-- `verticalSamplingFactor = w2[7:0]` (rule R74). -/
def fieldVsf (w : Word) : BitVec 8 := w.extractLsb' 0 8
/-- `rsv2 = w2[31:8]` (rule R74). -/
def fieldRsv2 (w : Word) : BitVec 24 := w.extractLsb' 8 24

/-! ### Payloads -/

/-- How many words carry `n` coefficients (rules R76, R79). The addition is exact: test vector E12. -/
def coefWords (n : Nat) : Nat := (n + 1) / 2

/-- The first `n` coefficients that the words carry, two per word, low half first; with `n` odd the last high half is
padding and is ignored (rules R76, R84). -/
def unpackCoefs : Nat → List Word → List Coef
  | 0, _ => []
  | _ + 1, [] => []
  | 1, w :: _ => [lowHalf w]
  | n + 2, w :: ws => lowHalf w :: highHalf w :: unpackCoefs n ws

/-- The quantization table that 32 words carry: entry `2k` in the low half of word `k`, entry `2k+1` in its high half
(rule R74). -/
def tableOfWords (ws : List Word) : QTable :=
  Vector.ofFn fun k =>
    if k.val % 2 = 0 then lowHalf (ws.getD (k.val / 2) 0#32) else highHalf (ws.getD (k.val / 2) 0#32)

/-! ### The decoder -/

/-- What the words at the head of the command port are (rule R80). -/
inductive Decoded where
  /-- The command has not arrived in full: the unit waits. -/
  | incomplete
  /-- An illegal command, with the `op` and `idx` of its command word and the words it takes. -/
  | illegal (op : BitVec 8) (idx : Index) (consumed : Nat)
  /-- A whole command and the words it takes. -/
  | command (i : Instr) (consumed : Nat)
  deriving DecidableEq, Repr

/-- START after its command word: 34 more words, of which word 2's reserved bits must be 0 (rules R73, R74, R80). -/
def decodeStart (idx : Index) : List Word → Decoded
  | w1 :: w2 :: table =>
    if table.length < 32 then .incomplete
    else if fieldRsv2 w2 ≠ 0#24 then .illegal opStart idx 35
    else .command (.start idx (lowHalf w1) (highHalf w1) (fieldVsf w2) (tableOfWords table)) 35
  | _ => .incomplete

/-- APPEND_ROW after its command word: the count `N`, then the words that carry `N` coefficients (rules R75, R76, R80). -/
def decodeAppendRow (idx : Index) : List Word → Decoded
  | w1 :: payload =>
    if payload.length < coefWords w1.toNat then .incomplete
    else .command (.appendRow idx (unpackCoefs w1.toNat payload)) (2 + coefWords w1.toNat)
  | [] => .incomplete

/-- Rule R80's `decode`: the command at the head of the word stream. -/
def decode : List Word → Decoded
  | [] => .incomplete
  | w0 :: rest =>
    if legalOp (fieldOp w0) = false ∨ fieldRsv0 w0 ≠ 0#16 then .illegal (fieldOp w0) (fieldIdx w0) 1
    else if fieldOp w0 = opGetResult then .command (.getResult (fieldIdx w0)) 1
    else if fieldOp w0 = opStart then decodeStart (fieldIdx w0) rest
    else decodeAppendRow (fieldIdx w0) rest

/-- Rule R79's command length from the first word and, for APPEND_ROW, the second. -/
def commandLength (w0 w1 : Word) : Nat :=
  if fieldOp w0 = opStart then 35
  else if fieldOp w0 = opAppendRow then 2 + coefWords w1.toNat
  else 1

/-! ### The encoder -/

/-- The command word: `rsv0 = 0`, the index, the opcode (rule R71). -/
def commandWord (op : BitVec 8) (idx : Index) : Word := 0#16 ++ idx ++ op

/-- Two 16-bit items in one word, the first in the low half (rule R54). -/
def pairWord (lo hi : Half) : Word := hi ++ lo

/-- Coefficients, two per word, low half first. The padding half of an odd count is written as 0 (rule R76 lets it be
anything: log entry 12). -/
def packCoefs : List Coef → List Word
  | [] => []
  | [a] => [pairWord a 0#16]
  | a :: b :: rest => pairWord a b :: packCoefs rest

/-- The table's 32 words (rule R74). -/
def tableWords (qt : QTable) : List Word :=
  List.ofFn fun k : Fin 32 => pairWord qt[2 * k.val] qt[2 * k.val + 1]

/-- START's word 2: `rsv2 = 0`, then the vertical sampling factor (rule R74). -/
def vsfWord (v : BitVec 8) : Word := 0#24 ++ v

/-- The words of a command (rules R71 to R77). -/
def encode : Instr → List Word
  | .start idx w h v qt => commandWord opStart idx :: pairWord w h :: vsfWord v :: tableWords qt
  | .appendRow idx coefs => commandWord opAppendRow idx :: BitVec.ofNat 32 coefs.length :: packCoefs coefs
  | .getResult idx => [commandWord opGetResult idx]

/-- The opcode of a command (rule R72). -/
def Instr.op : Instr → BitVec 8
  | .start _ _ _ _ _ => opStart
  | .appendRow _ _ => opAppendRow
  | .getResult _ => opGetResult

/-- The slot index of a command (rule R71). -/
def Instr.idx : Instr → Index
  | .start idx _ _ _ _ => idx
  | .appendRow idx _ => idx
  | .getResult idx => idx

/-- How many words a command takes (rules R70, R79). -/
def Instr.words : Instr → Nat
  | .start _ _ _ _ _ => 35
  | .appendRow _ coefs => 2 + coefWords coefs.length
  | .getResult _ => 1

/-! ### A command given by its bits -/

/-- The words of `nbits` bits `w`, the first word from the least significant bits. -/
def wordsOfBits (nbits w : Nat) : List Word :=
  (List.range ((nbits + 31) / 32)).map fun k => BitVec.ofNat 32 (w % 2 ^ nbits / 2 ^ (32 * k))

/-- The words of the one command whose low `nbits` bits are `w` and whose other bits are 0: as many words as rule R79
gives it. -/
def commandOfBits (nbits w : Nat) : List Word :=
  let ws := wordsOfBits nbits w
  let n := commandLength (ws.getD 0 0#32) (ws.getD 1 0#32)
  ws.take n ++ List.replicate (n - ws.length) 0#32

/-- The command the decoder reads from an instruction given by its bits; `none` where it refuses. -/
def decodeTableWord (nbits w : Nat) : Option Instr :=
  match decode (commandOfBits nbits w) with
  | .command i _ => some i
  | _ => none

end Sys2Proof
end

