-- ==== Sys2Proof/Config.lean ====
section
/-!
DEFINITION. The unit's open parameters (`00_scope.md` rule R8). Each is a constant with no body: nothing can be proved
about its value beyond what the spec says of it. Log entries 1 and 2.
-/

namespace Sys2Proof.Config

/-- How many slots the unit has beyond slot 0 (rule R8: 1 ≤ `MAX_COMPONENTS` ≤ 256, value OPEN). -/
opaque spareSlots : Fin 256

/-- `MAX_COMPONENTS`, the number of slots (rules R8, R21). It is at least 1 and at most 256, and otherwise open. -/
def maxComponents : Nat := spareSlots.val + 1

/-- `PLANE_BYTES_MAX`: the largest plane one slot can hold, in bytes; `none` when it is unbounded (rules R8, R168). -/
opaque planeBytesMax : Option Nat

/-- `FLAT_ZERO`: the sample the transform gives every position of an all-zero block (rules R8, R122). -/
opaque flatZero : Byte

/-- The inverse transform `T` of rule R120 on the dequantized coefficients, wherever rule R122 does not fix it: on any
block that is not all zero. -/
opaque nonzeroTransform : Vector Int 64 → SampleBlock

end Sys2Proof.Config
end

