-- ==== Sys2Proof/Machine/State.lean ====
section
/-!
DEFINITION. The unit's state as plain data: the slot registry and the unit-wide registers of `10_state.md` rule R20,
the two ports of rules R40 and R41, the reset input of rule R43, and the capacity parameter.
-/

namespace Sys2Proof.Machine

/-- A component descriptor (rules R20, R24, R37). -/
structure Desc where
  /-- Grid width, in blocks. -/
  gridWidth : Half
  /-- Grid height, in blocks. -/
  gridHeight : Half
  /-- Block rows in one MCU row. -/
  verticalSamplingFactor : BitVec 8
  deriving DecidableEq, Repr

/-- A plane buffer: a byte sequence (rules R12, R23, R50). `cells` lists the bytes that are not 0, at strictly rising
offsets below `len`; every other byte of the plane is 0, START's zero fill (rule R104). Log entry 3. -/
structure Plane where
  /-- `len(buffer)`. -/
  len : Offset
  /-- The bytes that are not 0, in canonical form. -/
  cells : List Host.Cell
  deriving DecidableEq, Repr

/-- One slot of the registry (rule R20). -/
structure Slot where
  /-- The write cursor (rule R22). -/
  cursor : Offset
  /-- The output buffer (rule R23). -/
  buffer : Plane
  /-- The component descriptor, or none (rule R24). -/
  desc : Option Desc
  /-- The quantization table, or none (rule R26). -/
  qt : Option QTable
  /-- Set from a successful START to the next GET_RESULT (rule R25). -/
  active : Bool
  deriving DecidableEq, Repr

/-- The status of a command (`60_exceptions.md` rule R160). -/
inductive Status where
  | ok
  | slotBusy
  | rowLengthMismatch
  | invalidIndex
  | notStarted
  | outOfBounds
  | capacityExceeded
  | illegalCommand
  deriving DecidableEq, Repr

/-- The unit's whole state. -/
structure State where
  /-- The registry: one entry for each index in `[0, MAX_COMPONENTS)` (rules R20, R21). Its length is the parameter
  `MAX_COMPONENTS`, which no step changes (log entry 1). -/
  slots : List Slot
  /-- `unit.fault`, the status code latch (rule R33). -/
  fault : BitVec 8
  /-- `unit.halted` (rule R34). -/
  halted : Bool
  /-- Command words the host has written and no executed command has taken, oldest first; the words of a command that
  has not arrived in full are among them (rule R40, log entry 5). -/
  cmdPort : List Word
  /-- Response words the unit has written and the host has not yet read, oldest first (rule R41). -/
  respPort : List Word
  /-- The reset input: the host has asserted reset and the unit has not yet taken it (rule R43, log entries
  4 and 18). -/
  resetIn : Bool
  /-- The parameter `PLANE_BYTES_MAX`, `none` when unbounded; no step changes it (rule R8, log entry 1). -/
  planeBytesMax : Option Nat
  deriving DecidableEq, Repr

/-- Why a step can stop with no next state. The unit's own errors are no faults here: the spec gives each of them a
next state (rule R165). -/
inductive Fault where
  /-- Raised by APPEND_ROW on a slot whose `active` is 1 while `desc` or `qt` is none: the spec gives no effect, and no
  run reaches such a state (rules R25, R30, R39). Safe: the model stops. Log entry 7. -/
  | activeWithoutSession
  deriving DecidableEq, Repr

/-- Why the model gives an instruction no meaning. -/
inductive Refusal where
  /-- Raised by a dispatch arm whose instruction has no meaning yet; no arm of this model raises it. Safe. -/
  | notModelled (mnemonic : String)
  deriving DecidableEq, Repr

/-- An empty plane, `[]` (rules R12, R39). -/
def Plane.empty : Plane := { len := 0#40, cells := [] }

/-- A slot as reset leaves it (rule R39). -/
def Slot.atReset : Slot := { cursor := 0#40, buffer := Plane.empty, desc := none, qt := none, active := false }

/-- A unit of `n` slots and plane capacity `cap` as reset leaves it: every slot and register at the value of rule R39,
both ports empty (rule R190), reset no longer asserted. -/
def State.resetOf (n : Nat) (cap : Option Nat) : State :=
  { slots := List.replicate n Slot.atReset
    fault := 0#8
    halted := false
    cmdPort := []
    respPort := []
    resetIn := false
    planeBytesMax := cap }

/-- The unit right after reset (rules R39, R190), for the open parameters of `Config`. -/
def State.reset : State := State.resetOf Config.maxComponents Config.planeBytesMax

end Sys2Proof.Machine
end

