-- ==== Sys2Proof/Machine/Flags.lean ====
section
/-!
DEFINITION. Status codes, the status word and the status outputs. The unit has no condition codes (`10_state.md` rule
R32): what it reports is a status (`60_exceptions.md` rule R160).
-/

namespace Sys2Proof.Machine

/-- The code of a status, in the status word and in `unit.fault` (rule R160). -/
def Status.code : Status → BitVec 8
  | .ok => 0#8
  | .slotBusy => 1#8
  | .rowLengthMismatch => 2#8
  | .invalidIndex => 3#8
  | .notStarted => 4#8
  | .outOfBounds => 5#8
  | .capacityExceeded => 6#8
  | .illegalCommand => 7#8

/-- The status word: `status` in bits 7 to 0, `op` in 15 to 8, `idx` in 23 to 16, and 0 above (`30_encoding.md` rule
R81). -/
def statusWord (e : Status) (op : BitVec 8) (idx : Index) : Word := 0#8 ++ idx ++ op ++ e.code

/-- The output `fault_code[7:0]` (rule R42). -/
def State.faultCode (s : State) : BitVec 8 := s.fault

/-- The output `halted` (rule R42). -/
def State.haltedOut (s : State) : Bool := s.halted

end Sys2Proof.Machine
end

