-- ==== Sys2Proof/Machine/Operands.lean ====
section
/-!
DEFINITION. The quantities commands compute from their operands: a descriptor's derived sizes (`00_scope.md` rule R15),
a row's blocks (`41_row_append.md` rules R123 to R128), the packing of bytes into response words (`20_memory.md` rule
R54) and the operand shorthands of `30_encoding.md` rule R87. All of it is exact arithmetic on natural numbers (rules
R11, R127).
-/

namespace Sys2Proof.Machine

/-! ### Derived quantities of a descriptor -/

/-- `n = w * h * 64`, the plane's length in bytes (rules R15, R104). -/
def planeBytes (w h : Half) : Nat := w.toNat * h.toNat * 64

/-- `blockCount = w * v`: blocks in one MCU row (rules R15, R123). -/
def Desc.blockCount (d : Desc) : Nat := d.gridWidth.toNat * d.verticalSamplingFactor.toNat

/-- `lineStride = w * 8`: bytes in one plane line (rules R15, R123). -/
def Desc.lineStride (d : Desc) : Nat := d.gridWidth.toNat * 8

/-- `rowBytes = blockCount * 64`: the coefficients of one MCU row, and the cursor's step (rules R15, R123). -/
def Desc.rowBytes (d : Desc) : Nat := d.blockCount * 64

/-- The plane length of a descriptor (rule R15). -/
def Desc.planeBytes (d : Desc) : Nat := Machine.planeBytes d.gridWidth d.gridHeight

/-! ### The blocks of a row -/

/-- `x = (b mod w) * 8` (rule R124). -/
def blockX (w b : Nat) : Nat := b % w * 8

/-- `y = (b div w) * 8` (rule R124). -/
def blockY (w b : Nat) : Nat := b / w * 8

/-- `base(b) = cursor + y * lineStride + x` (rule R126). -/
def blockBase (w cur b : Nat) : Nat := cur + blockY w b * (w * 8) + blockX w b

/-- The plane offset of output position `k` of block `b`: block row `k div 8`, block column `k mod 8` (rules R126,
R128). -/
def sampleOffset (w cur b k : Nat) : Nat := blockBase w cur b + k / 8 * (w * 8) + k % 8

/-- `c[64b .. 64b+64)`, position `j` from `c[64b + j]` with no reordering (rules R125, R129). -/
def blockCoefs (c : List Coef) (b : Nat) : CoefBlock := Vector.ofFn fun j => c.getD (64 * b + j.val) 0#16

/-- The block that holds the sample `rel` bytes into a row, of planes `w` blocks wide: rule R124 read backwards. -/
def blockAt (w rel : Nat) : Nat := rel / (w * 8) / 8 * w + rel % (w * 8) / 8

/-- The output position of that sample in its block: rule R128 read backwards. -/
def positionAt (w rel : Nat) : Fin 64 := ⟨rel / (w * 8) % 8 * 8 + rel % (w * 8) % 8, by omega⟩

/-! ### Response packing -/

/-- Four bytes in one word, byte 0 in bits 7 to 0 (rules R54, R82, R150). -/
def packBytes (b0 b1 b2 b3 : Byte) : Word := b3 ++ b2 ++ b1 ++ b0

/-- Byte `j` of a word, for `j` in 0 to 3 (rule R54). -/
def byteOfWord (w : Word) (j : Nat) : Byte := w.extractLsb' (8 * j) 8

/-- `L[31:0]` (rule R82). -/
def lengthLow (len : Offset) : Word := len.extractLsb' 0 32

/-- `zext_32(L[39:32])` (rule R82). -/
def lengthHigh (len : Offset) : Word := (len.extractLsb' 32 8).zeroExtend 32

/-! ### Operand shorthands -/

/-- `flat(q)`: 64 copies of `q` (rule R87). -/
def flatTable (q : BitVec 16) : QTable := Vector.replicate 64 q

/-- `zeros(n)`: `n` zero coefficients (rule R87). -/
def zeroCoefs (n : Nat) : List Coef := List.replicate n 0#16

/-- `dc(d)`: one block, `d` and then 63 zeros (rule R87). -/
def dcBlock (d : Coef) : List Coef := d :: List.replicate 63 0#16

end Sys2Proof.Machine
end

