-- ==== Sys2Proof/Machine/Ops.lean ====
section
/-!
DEFINITION. The shared operations: plane memory (`00_scope.md` rules R12, R13; `20_memory.md` rules R50 to R60), slot
access, the response port, raising an error (`60_exceptions.md` rule R165), taking reset (`70_reset_and_hazards.md`
rule R190), placing the blocks of a row (`41_row_append.md` rules R126, R131), and the host's side of the ports (rules
R40, R41, R43).
-/

namespace Sys2Proof.Machine

/-! ### Plane memory -/

/-- The byte that a list of cells gives offset `o`; an offset it does not list reads 0, START's zero fill (rule R104,
log entry 3). -/
def cellAt : List Host.Cell → Nat → Byte
  | [], _ => 0#8
  | (a, v) :: rest, o => if a = o then v else cellAt rest o

/-- Puts byte `v` at offset `o`, keeping offsets rising and listing no 0. -/
def setCell (o : Nat) (v : Byte) : List Host.Cell → List Host.Cell
  | [] => if v = 0#8 then [] else [(o, v)]
  | (a, u) :: rest =>
    if a < o then (a, u) :: setCell o v rest
    else if a = o then (if v = 0#8 then rest else (o, v) :: rest)
    else if v = 0#8 then (a, u) :: rest
    else (o, v) :: (a, u) :: rest

/-- The canonical form of a plane of `len` bytes, from offset `lo` up: offsets strictly rising and below `len`, no cell
holding 0. -/
def cellsWf (len : Nat) : Nat → List Host.Cell → Bool
  | _, [] => true
  | lo, (a, v) :: rest => decide (lo ≤ a) && decide (a < len) && (v != 0#8) && cellsWf len (a + 1) rest

/-- The plane is in canonical form. -/
def Plane.wf (p : Plane) : Bool := cellsWf p.len.toNat 0 p.cells

/-- Every plane of the unit is in canonical form. -/
def Memory.wf (s : State) : Bool := s.slots.all fun sl => sl.buffer.wf

/-- `zeros(n)`, a fresh plane of `n` zero bytes (rules R12, R104, R106). -/
def Plane.zeros (n : Nat) : Plane := { len := BitVec.ofNat 40 n, cells := [] }

/-- `b[o]`, for an offset of the plane (rule R12). -/
def Plane.read (p : Plane) (o : Nat) : Byte := cellAt p.cells o

/-- `b[o] <- v` (rules R12, R13). The plane has no byte at an offset of `len` or more, so there nothing is written; no
command reaches that case (rule R60, log entry 8). -/
def Plane.write (p : Plane) (o : Nat) (v : Byte) : Plane :=
  if o < p.len.toNat then { p with cells := setCell o v p.cells } else p

/-- `MemRead(i, 0, n)` of a plane: its first `n` bytes in ascending offset (rules R13, R50). -/
def Plane.bytes (p : Plane) (n : Nat) : List Byte := (List.range n).map p.read

/-! ### Slots -/

/-- The slot a command's index names; `none` when the index is not below `MAX_COMPONENTS` (rule R21). -/
def State.slot? (s : State) (idx : Index) : Option Slot := s.slots[idx.toNat]?

/-- `slot[idx] <- sl` (rules R12, R28). -/
def State.setSlot (s : State) (idx : Index) (sl : Slot) : State := { s with slots := s.slots.set idx.toNat sl }

/-- Whether a plane of `n` bytes is larger than `PLANE_BYTES_MAX` (rules R103, R168). -/
def exceedsCapacity (cap : Option Nat) (n : Nat) : Bool :=
  match cap with
  | none => false
  | some most => decide (most < n)

/-! ### The ports -/

/-- `respond(w0, w1, ...)`: sends words on the response port (rules R14, R41). -/
def State.respond (s : State) (ws : List Word) : State := { s with respPort := s.respPort ++ ws }

/-- The unit has taken the first `n` words of the command port (rules R40, R79). -/
def State.consume (s : State) (n : Nat) : State := { s with cmdPort := s.cmdPort.drop n }

/-- Data word `k` of a GET_RESULT response: plane bytes `4k` to `4k+3` (rules R82, R150). -/
def dataWord (p : Plane) (k : Nat) : Word :=
  packBytes (p.read (4 * k)) (p.read (4 * k + 1)) (p.read (4 * k + 2)) (p.read (4 * k + 3))

/-- The response to a successful GET_RESULT: status word, 40-bit length in two words, the plane (rule R82). -/
def dataResponse (op : BitVec 8) (idx : Index) (p : Plane) : List Word :=
  statusWord .ok op idx :: lengthLow p.len :: lengthHigh p.len :: (List.range (p.len.toNat / 4)).map (dataWord p)

/-! ### Errors and reset -/

/-- `raise E(op, idx)` (rule R165): the status word, then the fault latch, then the halt. Nothing else changes (rule
R166). -/
def State.raise (s : State) (e : Status) (op : BitVec 8) (idx : Index) : State :=
  { s.respond [statusWord e op idx] with fault := e.code, halted := true }

/-- What an illegal command does, with the words it takes (rules R80, R84, R169). -/
def State.takeIllegal (s : State) (op : BitVec 8) (idx : Index) (consumed : Nat) : State :=
  (s.consume consumed).raise .illegalCommand op idx

/-- The unit takes reset (rule R190): both ports empty, every slot and register at rule R39's value. The two parameters
stay, since they are the unit's own. -/
def State.takeReset (s : State) : State := State.resetOf s.slots.length s.planeBytesMax

/-! ### Block placement -/

/-- Rule R131: the 64 one-byte writes of block `b`, whose samples are `out`, in a row that starts at `cur`. -/
def writeBlock (w cur b : Nat) (out : SampleBlock) (p : Plane) : Plane :=
  (List.finRange 64).foldl (fun q k => q.write (sampleOffset w cur b k.val) out[k]) p

/-- The block writes of a row in a given order of the blocks; `f b` is block `b`'s samples. Every order gives the same
plane (rule R63). -/
def placeBlocks (w cur : Nat) (f : Nat → SampleBlock) (order : List Nat) (p : Plane) : Plane :=
  order.foldl (fun q b => writeBlock w cur b (f b) q) p

/-- The samples of block `b` of a row, with `t` for the transform primitive (rules R125, R131, R132). -/
def rowBlock (t : CoefBlock → QTable → SampleBlock) (c : List Coef) (qt : QTable) (b : Nat) : SampleBlock :=
  t (blockCoefs c b) qt

/-- The whole row placed, in ascending block order (rules R63, R132; log entry 9). -/
def placeRow (t : CoefBlock → QTable → SampleBlock) (d : Desc) (qt : QTable) (cur : Nat) (c : List Coef) (p : Plane) :
    Plane :=
  placeBlocks d.gridWidth.toNat cur (rowBlock t c qt) (List.range d.blockCount) p

/-! ### The host's side of the ports -/

/-- The host writes words on the command port, in order (rule R40). -/
def State.hostWrite (s : State) (ws : List Word) : State := { s with cmdPort := s.cmdPort ++ ws }

/-- The host reads the oldest response word it has not read (rules R41, R195); `none` when there is none. -/
def State.hostRead (s : State) : Option (Word × State) :=
  match s.respPort with
  | [] => none
  | w :: rest => some (w, { s with respPort := rest })

/-- The host asserts reset (rules R43, R195); the next step takes it. DESIGN CHOICE, what happens between the two: words
the host writes in that gap are discarded with the others, response words sent before can still be read in it, and the
status outputs still show the old state. The spec does not say how long reset stays asserted. Log entry 18. -/
def State.hostReset (s : State) : State := { s with resetIn := true }

end Sys2Proof.Machine
end

