-- ==== Sys2Proof/Machine/Extraction.lean ====
section
/-!
DEFINITION. GET_RESULT (`42_result_extraction.md` rules R150 to R158).
-/

namespace Sys2Proof.Machine

/-- The slot GET_RESULT leaves (rule R151): an empty buffer and no session; cursor, descriptor and table as they were. -/
def drainedSlot (sl : Slot) : Slot := { sl with buffer := Plane.empty, active := false }

/-- GET_RESULT (rule R150): the one check, then the plane on the response port and the slot drained. -/
def getResultNext (idx : Index) (s : State) : State :=
  match s.slot? idx with
  | none => s.raise .invalidIndex opGetResult idx
  | some sl => (s.setSlot idx (drainedSlot sl)).respond (dataResponse opGetResult idx sl.buffer)

/-- GET_RESULT always gives a next state. -/
def execGetResult (idx : Index) (s : State) : Host.Outcome State Fault Refusal :=
  .next (getResultNext idx s)

end Sys2Proof.Machine
end

