-- ==== Sys2Proof/Machine/Registry.lean ====
section
/-!
DEFINITION. The component slot registry's command, START (`40_slot_registry.md` rules R100 to R110).
-/

namespace Sys2Proof.Machine

/-- The slot a successful START leaves (rule R104): a fresh zero plane, cursor 0, the descriptor and the table by value,
and an open session. -/
def startedSlot (w h : Half) (v : BitVec 8) (qt : QTable) : Slot :=
  { cursor := 0#40
    buffer := Plane.zeros (planeBytes w h)
    desc := some { gridWidth := w, gridHeight := h, verticalSamplingFactor := v }
    qt := some qt
    active := true }

/-- START (rule R104): its three checks in order (rule R103), then the slot's new session. -/
def startNext (idx : Index) (w h : Half) (v : BitVec 8) (qt : QTable) (s : State) : State :=
  match s.slot? idx with
  | none => s.raise .invalidIndex opStart idx
  | some sl =>
    if sl.buffer.len ≠ 0#40 then s.raise .slotBusy opStart idx
    else if exceedsCapacity s.planeBytesMax (planeBytes w h) then s.raise .capacityExceeded opStart idx
    else (s.setSlot idx (startedSlot w h v qt)).respond [statusWord .ok opStart idx]

/-- START always gives a next state: the new session, or the error of the first check that fails. -/
def execStart (idx : Index) (w h : Half) (v : BitVec 8) (qt : QTable) (s : State) :
    Host.Outcome State Fault Refusal :=
  .next (startNext idx w h v qt s)

end Sys2Proof.Machine
end

