-- ==== Sys2Proof/Machine/Transform.lean ====
section
/-!
DEFINITION. The transform primitive `idct` of `41_row_append.md` rules R120 to R122: dequantization by exact products,
then an inverse transform that the spec leaves open. Log entry 2.
-/

namespace Sys2Proof.Machine

/-- `d[k] = c[k] * q[k]`, an exact integer: the coefficient signed, the table entry unsigned (rules R78, R120). -/
def dequantize (coefs : CoefBlock) (qt : QTable) : Vector Int 64 :=
  Vector.ofFn fun k => coefs[k].toInt * (qt[k].toNat : Int)

/-- The inverse transform `T` of rule R120. On an all-zero block every sample is `FLAT_ZERO` (rule R122); on any other
block it is open. -/
def inverseTransform (d : Vector Int 64) : SampleBlock :=
  if d = Vector.replicate 64 0 then Vector.replicate 64 Config.flatZero else Config.nonzeroTransform d

/-- The transform primitive: total, and a function of the coefficients and the table alone (rules R120, R121). -/
def idct (coefs : CoefBlock) (qt : QTable) : SampleBlock := inverseTransform (dequantize coefs qt)

end Sys2Proof.Machine
end

