-- ==== Sys2Proof/Machine/RowAppend.lean ====
section
/-!
DEFINITION. APPEND_ROW (`41_row_append.md` rules R132 to R142), over the block placement of `Machine/Ops.lean` and the
transform primitive of `Machine/Transform.lean`.
-/

namespace Sys2Proof.Machine

/-- The slot a successful APPEND_ROW leaves (rules R131, R132, R135): the row placed at the cursor, the cursor one row
on. `t` is the transform primitive. -/
def appendedSlot (t : CoefBlock → QTable → SampleBlock) (d : Desc) (qt : QTable) (c : List Coef) (sl : Slot) : Slot :=
  { sl with
    buffer := placeRow t d qt sl.cursor.toNat c sl.buffer
    cursor := BitVec.ofNat 40 (sl.cursor.toNat + d.rowBytes) }

/-- APPEND_ROW on an active slot that holds descriptor `d` and table `qt` (rule R132): the length check, the bounds
check (rules R133, R134), then the row. -/
def appendToSession (t : CoefBlock → QTable → SampleBlock) (idx : Index) (c : List Coef) (sl : Slot) (d : Desc)
    (qt : QTable) (s : State) : State :=
  if c.length ≠ d.rowBytes then s.raise .rowLengthMismatch opAppendRow idx
  else if sl.buffer.len.toNat < sl.cursor.toNat + d.rowBytes then s.raise .outOfBounds opAppendRow idx
  else (s.setSlot idx (appendedSlot t d qt c sl)).respond [statusWord .ok opAppendRow idx]

/-- APPEND_ROW with `t` for the transform primitive (rule R8: the model takes it as an argument). -/
def appendRowWith (t : CoefBlock → QTable → SampleBlock) (idx : Index) (c : List Coef) (s : State) :
    Host.Outcome State Fault Refusal :=
  match s.slot? idx with
  | none => .next (s.raise .invalidIndex opAppendRow idx)
  | some sl =>
    if sl.active = false then .next (s.raise .notStarted opAppendRow idx)
    else
      match sl.desc, sl.qt with
      | some d, some qt => .next (appendToSession t idx c sl d qt s)
      | _, _ => .fault .activeWithoutSession

/-- APPEND_ROW (rule R132), with the unit's own transform primitive. -/
def execAppendRow (idx : Index) (c : List Coef) (s : State) : Host.Outcome State Fault Refusal :=
  appendRowWith idct idx c s

end Sys2Proof.Machine
end

