-- ==== Sys2Proof/Machine/Dispatch.lean ====
section
/-!
DEFINITION. One arm per command: each is one call of the command's meaning.
-/

namespace Sys2Proof.Machine

def exec (i : Instr) (s : State) : Host.Outcome State Fault Refusal :=
  match i with
  | .start idx w h v qt => Sys2Proof.Machine.execStart idx w h v qt s
  | .appendRow idx coefs => Sys2Proof.Machine.execAppendRow idx coefs s
  | .getResult idx => Sys2Proof.Machine.execGetResult idx s

end Sys2Proof.Machine
end

