-- ==== Sys2Proof/Machine/Step.lean ====
section
/-!
DEFINITION. One step of the unit, and the placing of a command where the step takes its next one.
-/

namespace Sys2Proof.Machine

/-- One step. A reset the host has asserted is taken first (rule R190). A halted unit holds its state (rules R34, R170,
R182). Otherwise the unit looks at the words on the command port (rules R40, R80): it waits for a command that has not
arrived in full, raises IllegalCommand for an illegal one, and executes a whole one as one atomic step (rule R57).
Log entries 4 to 6 and 18. -/
def step (s : State) : Host.Outcome State Fault Refusal :=
  if s.resetIn then .next s.takeReset
  else if s.halted then .next s
  else
    match decode s.cmdPort with
    | .incomplete => .next s
    | .illegal op idx consumed => .next (s.takeIllegal op idx consumed)
    | .command i consumed => exec i (s.consume consumed)

/-- `s` with the command given by its bits at the head of the command port, reset not asserted and the unit not halted,
so that the next step runs that command. It stands for the host writing the command. Log entry 6. -/
def State.withFetchWord (s : State) (nbits w : Nat) : State :=
  { s with cmdPort := commandOfBits nbits w ++ s.cmdPort, halted := false, resetIn := false }

end Sys2Proof.Machine
end

