-- ==== Sys2Proof/Machine/Assembler.lean ====
section
/-!
DEFINITION. The spec's assembly language (`30_encoding.md` rule R87), as data: a line, the command it stands for, and
its text. Log entry 13.
-/

namespace Sys2Proof.Machine

/-- `<qt>` of a line (rule R87). -/
inductive AsmTable where
  /-- `[q0, ..., q63]` -/
  | list (qs : List Nat)
  /-- `flat(q)` -/
  | flat (q : Nat)
  deriving DecidableEq, Repr

/-- `<coefs>` of a line (rule R87). -/
inductive AsmCoefs where
  /-- `[c0, ..., cN-1]` -/
  | list (cs : List Int)
  /-- `zeros(n)` -/
  | zeros (n : Nat)
  /-- `dc(d)` -/
  | dc (d : Int)
  /-- Two of them joined with `++`. -/
  | append (a b : AsmCoefs)
  deriving DecidableEq, Repr

/-- One line of the language: one command. There are no pseudo-instructions (rule R87). -/
inductive AsmLine where
  | start (idx w h v : Nat) (qt : AsmTable)
  | appendRow (idx : Nat) (coefs : AsmCoefs)
  | getResult (idx : Nat)
  deriving DecidableEq, Repr

/-- The numbers of a table operand: the list it names. -/
def AsmTable.numbers : AsmTable → List Nat
  | .list qs => qs
  | .flat q => List.replicate 64 q

/-- The numbers of a coefficient operand: the list it names. -/
def AsmCoefs.numbers : AsmCoefs → List Int
  | .list cs => cs
  | .zeros n => List.replicate n 0
  | .dc d => d :: List.replicate 63 0
  | .append a b => a.numbers ++ b.numbers

/-- Whether a number is an i16 (rule R9). -/
def fitsI16 (c : Int) : Bool := decide (-32768 ≤ c) && decide (c ≤ 32767)

/-- The table that 64 u16 numbers name; `none` for any other list. -/
def tableOfNumbers (qs : List Nat) : Option QTable :=
  if qs.length = 64 ∧ qs.all (fun q => decide (q < 65536)) then
    some (Vector.ofFn fun k => BitVec.ofNat 16 (qs.getD k.val 0))
  else none

/-- The command a line stands for; `none` where an operand does not fit its field (rules R9, R71, R73, R74). -/
def AsmLine.toInstr : AsmLine → Option Instr
  | .start idx w h v qt =>
    if idx < 256 ∧ w < 65536 ∧ h < 65536 ∧ v < 256 then
      (tableOfNumbers qt.numbers).map
        (.start (BitVec.ofNat 8 idx) (BitVec.ofNat 16 w) (BitVec.ofNat 16 h) (BitVec.ofNat 8 v))
    else none
  | .appendRow idx coefs =>
    if idx < 256 ∧ coefs.numbers.length < 2 ^ 32 ∧ coefs.numbers.all fitsI16 then
      some (.appendRow (BitVec.ofNat 8 idx) (coefs.numbers.map (BitVec.ofInt 16)))
    else none
  | .getResult idx => if idx < 256 then some (.getResult (BitVec.ofNat 8 idx)) else none

/-- A list of number texts as the language writes it. -/
def asmList (items : List String) : String := "[" ++ ", ".intercalate items ++ "]"

/-- The text of a table operand. -/
def AsmTable.text : AsmTable → String
  | .list qs => asmList (qs.map toString)
  | .flat q => "flat(" ++ toString q ++ ")"

/-- The text of a coefficient operand. -/
def AsmCoefs.text : AsmCoefs → String
  | .list cs => asmList (cs.map toString)
  | .zeros n => "zeros(" ++ toString n ++ ")"
  | .dc d => "dc(" ++ toString d ++ ")"
  | .append a b => a.text ++ " ++ " ++ b.text

/-- The text of a line. -/
def AsmLine.text : AsmLine → String
  | .start idx w h v qt =>
    "start " ++ ", ".intercalate [toString idx, toString w, toString h, toString v, qt.text]
  | .appendRow idx coefs => "append_row " ++ toString idx ++ ", " ++ coefs.text
  | .getResult idx => "get_result " ++ toString idx

end Sys2Proof.Machine
end

