-- ==== Sys2Proof/Machine/System.lean ====
section
/-!
DEFINITION. Several units side by side (`60_exceptions.md` rule R178, `20_memory.md` rule R68). They share no state, so
a system is the list of its units and a move of the system is a step of one of them. Log entry 14.
-/

namespace Sys2Proof.Machine

/-- Several units; a unit is known by its place in the list only (rule R178: no identifier is visible to commands). -/
structure System where
  /-- The units, each with its own registry, ports, fault latch and halt. -/
  units : List State
  deriving DecidableEq, Repr

/-- Unit `j` takes one step. A place that holds no unit, and a unit whose step has no next state, change nothing. -/
def System.stepUnit (sys : System) (j : Nat) : System :=
  match sys.units[j]? with
  | none => sys
  | some u =>
    match step u with
    | .next t => { units := sys.units.set j t }
    | _ => sys

end Sys2Proof.Machine
end

