-- ==== Sys2Proof/Machine/Fairness.lean ====
section
/-!
DEFINITION. Runs of the unit and its host that go on for ever, and the one progress assumption of
`70_reset_and_hazards.md` rule R198, weak fairness. A run is a sequence of states and the moves between them; `σ n` is
the state before move `mv n`. Time is left out: how many moves pass before the unit takes its turn is open (log entry
17).
-/

namespace Sys2Proof.Machine

/-- A move of the unit or of its host (rules R19, R195). -/
inductive Move where
  /-- The unit takes its turn: one `step`. -/
  | step
  /-- Nothing happens to this unit: time passes, or another unit or its host moves. -/
  | idle
  /-- The host writes words on the command port (rule R40). -/
  | write (ws : List Word)
  /-- The host reads one response word (rule R41). -/
  | read
  /-- The host asserts reset (rule R43). -/
  | reset
  deriving DecidableEq, Repr

/-- The move leads from `s` to `t`. -/
def Move.Takes : Move → State → State → Prop
  | .step, s, t => Machine.step s = .next t
  | .idle, s, t => t = s
  | .write ws, s, t => t = s.hostWrite ws
  | .read, s, t => ∃ w, s.hostRead = some (w, t)
  | .reset, s, t => t = s.hostReset

/-- A run of one unit with its host: every move leads from one state to the next. -/
def IsRun (σ : Nat → State) (mv : Nat → Move) : Prop := ∀ n, (mv n).Takes (σ n) (σ (n + 1))

/-- A unit that is not halted, with reset not asserted and a whole command or an illegal one at the head of its port: a
command that rule R198 says is eventually executed. -/
def State.commandDue (s : State) : Bool := !s.resetIn && !s.halted && decide (decode s.cmdPort ≠ .incomplete)

/-- The unit has a turn to take: a command, as rule R198 says, or a reset that the host has asserted. The reset is the
model's own part of it, since in the model a reset waits for a step to take it (log entry 18). -/
def State.turnDue (s : State) : Bool := s.resetIn || s.commandDue

/-- Weak fairness (rule R198): a unit that from some state on always has a turn to take, takes one. -/
def WeaklyFair (σ : Nat → State) (mv : Nat → Move) : Prop :=
  ∀ n, (∀ m, n ≤ m → (σ m).turnDue = true) → ∃ m, n ≤ m ∧ mv m = .step

/-- A move of a system is a move of the unit at one place, or of its host; every other unit stays as it is (rules R68,
R178). -/
def System.Takes (j : Nat) (m : Move) (sys sys' : System) : Prop :=
  ∃ u t, sys.units[j]? = some u ∧ m.Takes u t ∧ sys' = { units := sys.units.set j t }

/-- A run of a system: `who n` is the place of the unit that move `n` is of. -/
def System.IsRun (σ : Nat → System) (who : Nat → Nat) (mv : Nat → Move) : Prop :=
  ∀ n, System.Takes (who n) (mv n) (σ n) (σ (n + 1))

/-- What the moves of a system are for the unit at place `j`: its own, and `idle` for every other unit's. -/
def System.movesOf (j : Nat) (who : Nat → Nat) (mv : Nat → Move) (n : Nat) : Move :=
  if who n = j then mv n else .idle

/-- Weak fairness of a system: of each of its units (rules R178, R198). `τ` are the states of unit `j`. -/
def System.WeaklyFair (σ : Nat → System) (who : Nat → Nat) (mv : Nat → Move) : Prop :=
  ∀ (j : Nat) (τ : Nat → State), (∀ n, (σ n).units[j]? = some (τ n)) →
    Machine.WeaklyFair τ (System.movesOf j who mv)

end Sys2Proof.Machine
end

