-- ==== Sys2Proof/Machine/Run.lean ====
section
/-!
DEFINITION. Runs: several steps, several commands in order, and how a run ends (`70_reset_and_hazards.md` rule R194).
-/

namespace Sys2Proof.Machine

/-- `n` steps of the unit. -/
def stepN : Nat → State → Host.Outcome State Fault Refusal
  | 0, s => .next s
  | n + 1, s =>
    match step s with
    | .next t => stepN n t
    | .fault r => .fault r
    | .refused r => .refused r

/-- Commands executed one after another, in order, each in full before the next (rules R19, R36, R62); a halted unit
executes no more of them (rule R170). -/
def execAll : List Instr → State → Host.Outcome State Fault Refusal
  | [], s => .next s
  | i :: rest, s =>
    if s.halted then .next s
    else
      match exec i s with
      | .next t => execAll rest t
      | .fault r => .fault r
      | .refused r => .refused r

/-- The words of a sequence of commands, in port order (rules R40, R70). -/
def encodeAll (is : List Instr) : List Word := is.flatMap encode

/-- How a run stands (rule R194). -/
inductive RunOutcome where
  /-- Every word read, every command executed with status OK, not halted. -/
  | complete
  /-- Halted, with the code of `unit.fault`. -/
  | faulted (code : BitVec 8)
  /-- Not halted; the words left are an incomplete command. -/
  | waiting
  /-- Not halted, with a whole or an illegal command still to take: the run has not ended. -/
  | running
  deriving DecidableEq, Repr

/-- The outcome that a state shows. -/
def State.outcome (s : State) : RunOutcome :=
  if s.halted then .faulted s.fault
  else
    match s.cmdPort with
    | [] => .complete
    | w :: ws =>
      match decode (w :: ws) with
      | .incomplete => .waiting
      | _ => .running

/-- Rule R194's run: reset, then the words `ws` written by the host, then as many steps as there are words. Each step
that does not wait takes at least one word, so no run needs more. -/
def runWords (slots : Nat) (cap : Option Nat) (ws : List Word) : Host.Outcome State Fault Refusal :=
  stepN ws.length ((State.resetOf slots cap).hostWrite ws)

/-- The commands of one session on a slot: START, then the rows in order (`70_reset_and_hazards.md` rule R193). -/
def sessionCommands (idx : Index) (d : Desc) (qt : QTable) (rows : List (List Coef)) : List Instr :=
  .start idx d.gridWidth d.gridHeight d.verticalSamplingFactor qt :: rows.map (Instr.appendRow idx)

end Sys2Proof.Machine
end

