-- ==== Sys2Proof/Safety.lean ====
section
/-!
DEFINITION. What every state a run reaches satisfies: the legal values of `10_state.md` rules R35 and R37, the session
invariant of rule R27 as far as one state shows it, and the canonical form of the planes.
-/

namespace Sys2Proof.Machine

/-- A slot with no open session has an empty buffer (rules R25, R39, R151); a slot with one holds a descriptor and a
table, a plane of the descriptor's size, and a cursor that is a whole number of MCU rows inside it (rules R27, R37). -/
def Slot.SessionOk (sl : Slot) : Prop :=
  if sl.active then
    ∃ d qt, sl.desc = some d ∧ sl.qt = some qt ∧ sl.buffer.len.toNat = d.planeBytes ∧
      d.rowBytes ∣ sl.cursor.toNat ∧ sl.cursor.toNat ≤ sl.buffer.len.toNat
  else sl.buffer = Plane.empty

/-- The invariant of one slot, in a unit of plane capacity `cap`. -/
structure Slot.Inv (cap : Option Nat) (sl : Slot) : Prop where
  /-- The plane is in canonical form. -/
  planeWf : sl.buffer.wf = true
  /-- The plane is no larger than the capacity (rule R37). -/
  fits : exceedsCapacity cap sl.buffer.len.toNat = false
  /-- `desc` and `qt` are written together (rules R29, R39). -/
  descQt : sl.desc.isSome = sl.qt.isSome
  /-- The session's invariant. -/
  session : sl.SessionOk

/-- The invariant of the unit. -/
structure State.Inv (s : State) : Prop where
  /-- `MAX_COMPONENTS` is in its range (rule R8). -/
  slotCount : 1 ≤ s.slots.length ∧ s.slots.length ≤ 256
  /-- Every slot satisfies its invariant. -/
  slotInv : ∀ sl ∈ s.slots, sl.Inv s.planeBytesMax
  /-- The fault latch holds a status code of rule R160 (rule R35). -/
  faultLegal : ∃ e : Status, s.fault = e.code
  /-- The unit is halted exactly when an error is recorded (rules R32 to R34). -/
  haltedIffFault : s.halted = true ↔ s.fault ≠ 0#8

end Sys2Proof.Machine
end

