-- ==== Sys2Proof/Certificates/Slice0/Obligations.lean ====
section
/-!
DEFINITION. The statements for the provers. Each docstring names the rule of `spec/` it formalises.
-/

open Sys2Proof Sys2Proof.Machine

/-! ### Encoding -/

/-- Rules R71 to R80: the decoder reads back every well-formed command from its words, with every operand, whatever
words follow it on the port, and says how many words it took. -/
def Obligations.DecodeReadsBackEncode : Prop :=
  ∀ (i : Instr) (more : List Word), i.wf = true → decode (encode i ++ more) = .command i i.words

/-- Rules R73 to R79: the other direction. The words a decoded command took are the words that encode it, so no bit of
them is dropped; the padding half of an odd APPEND_ROW is the one exception (rule R76). -/
def Obligations.EncodeGivesBackDecodedWords : Prop :=
  ∀ (ws : List Word) (i : Instr) (n : Nat), decode ws = .command i n →
    (∀ idx c, i = .appendRow idx c → c.length % 2 = 0) → encode i = ws.take n

/-- Rules R76, R79, R80: a decoded command is well formed, took as many words as its length rule says, no more than are
there, and is decided by those words alone. -/
def Obligations.DecodeTakesItsOwnWordsOnly : Prop :=
  ∀ (ws : List Word) (i : Instr) (n : Nat), decode ws = .command i n →
    i.wf = true ∧ n = i.words ∧ n ≤ ws.length ∧ ∀ ws', ws'.take n = ws.take n → decode ws' = .command i n

/-- Rule R76: the padding half-word of an odd-length APPEND_ROW is ignored. The last payload word may hold any high
half. -/
def Obligations.OddPaddingIsIgnored : Prop :=
  ∀ (idx : Index) (c : List Coef) (last : Coef) (pad : BitVec 16) (more : List Word),
    c.length % 2 = 0 → c.length + 1 < 2 ^ 32 →
    decode (commandWord 0x02#8 idx :: BitVec.ofNat 32 (c.length + 1) :: (packCoefs c ++ (pad ++ last) :: more)) =
      .command (.appendRow idx (c ++ [last])) (2 + (c.length + 2) / 2)

/-- Rules R71 to R76 on words written out by hand from the spec's tables (test vectors E1, E9 and E10, E11 with index 1 for
its 0, and E2 with the index where rule R71 puts it: log entry 15). -/
def Obligations.WrittenWordsDecodeAsTheyStand : Prop :=
  decode [0x00000003#32] = .command (.getResult 0#8) 1 ∧
  decode [0x0000FF03#32] = .command (.getResult 255#8) 1 ∧
  decode [0x00000002#32, 0x00000000#32] = .command (.appendRow 0#8 []) 2 ∧
  decode [0x00000002#32, 0x00000001#32, 0xABCD8000#32] = .command (.appendRow 0#8 [0x8000#16]) 3 ∧
  decode [0x00000102#32, 0x00000002#32, 0x7FFFFFFF#32] = .command (.appendRow 1#8 [0xFFFF#16, 0x7FFF#16]) 3 ∧
  decode (0x00000201#32 :: 0x00040003#32 :: 0x00000005#32 :: List.replicate 32 0x00020001#32) =
    .command (.start 2#8 3#16 4#16 5#8 (Vector.ofFn fun k => if k.val % 2 = 0 then 1#16 else 2#16)) 35

/-- Rules R87, R88: the three worked encodings, from the assembly language's lines. -/
def Obligations.AssembledLinesEncodeAsWorked : Prop :=
  (AsmLine.toInstr (.getResult 2)).map encode = some [0x00000203#32] ∧
  (AsmLine.toInstr (.start 0 2 2 1 (.flat 1))).map encode =
    some (0x00000001#32 :: 0x00020002#32 :: 0x00000001#32 :: List.replicate 32 0x00010001#32) ∧
  (AsmLine.toInstr (.appendRow 1 (.list [5, -1, 7]))).map encode =
    some [0x00000102#32, 0x00000003#32, 0xFFFF0005#32, 0x00000007#32]

/-! ### The step -/

/-- Rules R40, R57, R79, R80: a unit that is not halted, with reset not asserted, executes the whole command at the head
of its port, as one step, having taken that command's words and no others. -/
def Obligations.StepRunsTheDecodedCommand : Prop :=
  ∀ (s : State) (i : Instr) (n : Nat), s.resetIn = false → s.halted = false → decode s.cmdPort = .command i n →
    step s = exec i { s with cmdPort := s.cmdPort.drop n }

/-- Log entry 6 (the model's own interface): a command given by its bits, placed with `withFetchWord`, is the one the next
step runs, on the state the command finds; the words already on the port wait behind it. -/
def Obligations.PlacedCommandRunsNext : Prop :=
  ∀ (s : State) (nbits w : Nat) (i : Instr), decodeTableWord nbits w = some i →
    step (s.withFetchWord nbits w) = exec i { s with halted := false, resetIn := false }

/-- Rule R169: the three illegal encodings, each with what it records: one status word with `op` and `idx` as read from
the command word, the fault latch, the halt, and nothing else but the words taken (rules R80, R84). -/
def Obligations.IllegalCommandHaltsTheUnit : Prop :=
  ∀ s : State, s.resetIn = false → s.halted = false →
    (∀ (w0 : Word) (rest : List Word), s.cmdPort = w0 :: rest →
      (w0.extractLsb' 0 8 ∉ [0x01#8, 0x02#8, 0x03#8] ∨ w0.extractLsb' 16 16 ≠ 0#16) →
      step s = .next { s with
        cmdPort := rest
        respPort := s.respPort ++ [0#8 ++ w0.extractLsb' 8 8 ++ w0.extractLsb' 0 8 ++ 7#8]
        fault := 7#8
        halted := true }) ∧
    (∀ (w0 w1 w2 : Word) (rest : List Word), s.cmdPort = w0 :: w1 :: w2 :: rest → 32 ≤ rest.length →
      w0.extractLsb' 0 8 = 0x01#8 → w0.extractLsb' 16 16 = 0#16 → w2.extractLsb' 8 24 ≠ 0#24 →
      step s = .next { s with
        cmdPort := rest.drop 32
        respPort := s.respPort ++ [0#8 ++ w0.extractLsb' 8 8 ++ 0x01#8 ++ 7#8]
        fault := 7#8
        halted := true })

/-- Rule R182: the unit waits, holding all state unchanged, while no complete command is on the port, and a halted unit
holds its state. The command's length is rule R79's. -/
def Obligations.UnitWaitsHoldingItsState : Prop :=
  ∀ s : State, s.resetIn = false →
    (s.halted = true ∨ s.cmdPort = [] ∨
      ∃ (w0 : Word) (rest : List Word), s.cmdPort = w0 :: rest ∧ w0.extractLsb' 16 16 = 0#16 ∧
        (w0.extractLsb' 0 8 = 0x01#8 ∧ rest.length < 34 ∨
          w0.extractLsb' 0 8 = 0x02#8 ∧
            (rest = [] ∨ ∃ w1 payload, rest = w1 :: payload ∧ payload.length < (w1.toNat + 1) / 2))) →
    step s = .next s

/-- Rules R34, R170: a halted unit reads no command word, executes no command and writes no response word, however many
steps it is given and whatever the host writes, until reset is asserted. -/
def Obligations.HaltedUnitIgnoresThePort : Prop :=
  ∀ (s : State) (ws : List Word) (n : Nat), s.halted = true → s.resetIn = false →
    stepN n (s.hostWrite ws) = .next (s.hostWrite ws)

/-- Rules R33, R165, R174: whatever a step does, the fault latch and the halt change only by reset, which clears both,
or by the first error of a unit that was not halted, whose status word is then the last response word. -/
def Obligations.FaultLatchChangesOnlyByResetOrFirstError : Prop :=
  ∀ s t : State, step s = .next t → t.fault ≠ s.fault ∨ t.halted ≠ s.halted →
    (s.resetIn = true ∧ t.fault = 0#8 ∧ t.halted = false) ∨
    (s.resetIn = false ∧ s.halted = false ∧ t.halted = true ∧
      ∃ (e : Status) (op : BitVec 8) (idx : Index), e ≠ .ok ∧ t.fault = e.code ∧
        t.respPort = s.respPort ++ [statusWord e op idx])

/-- Rules R39, R43, R190: a step of a unit whose reset input is asserted empties both ports and puts every slot and
every unit register at its reset value, halted or not. -/
def Obligations.AssertedResetIsTaken : Prop :=
  ∀ s : State, step s.hostReset = .next
    { slots := s.slots.map fun _ =>
        { cursor := 0#40, buffer := { len := 0#40, cells := [] }, desc := none, qt := none, active := false }
      fault := 0#8
      halted := false
      cmdPort := []
      respPort := []
      resetIn := false
      planeBytesMax := s.planeBytesMax }

/-- Rules R8, R39: the state right after reset has between 1 and 256 slots, each at its reset values, no fault recorded,
not halted, and both ports empty. -/
def Obligations.ResetStateValues : Prop :=
  1 ≤ State.reset.slots.length ∧ State.reset.slots.length ≤ 256 ∧
  (∀ sl ∈ State.reset.slots, sl.cursor = 0#40 ∧ sl.buffer.len = 0#40 ∧ sl.buffer.cells = [] ∧ sl.desc = none ∧
    sl.qt = none ∧ sl.active = false) ∧
  State.reset.fault = 0#8 ∧ State.reset.halted = false ∧ State.reset.cmdPort = [] ∧ State.reset.respPort = []

/-- Log entry 1 (the model's own convention): no step changes the two parameters that the state carries, the number of
slots and the plane capacity. -/
def Obligations.ParametersNeverChange : Prop :=
  ∀ s t : State, step s = .next t → t.slots.length = s.slots.length ∧ t.planeBytesMax = s.planeBytesMax

/-! ### START -/

/-- Rules R103, R104, R105, R171: START in full. Its three checks, in order: the first that fails ends the command with
its status code, and no slot changes. All passed: the next state, field by field. -/
def Obligations.StartChecksThenOpensASession : Prop :=
  ∀ (idx : Index) (w h : Half) (v : BitVec 8) (qt : QTable) (s : State),
    (s.slots.length ≤ idx.toNat →
      exec (.start idx w h v qt) s = .next { s with
        respPort := s.respPort ++ [0#8 ++ idx ++ 0x01#8 ++ 3#8], fault := 3#8, halted := true }) ∧
    (∀ sl, s.slots[idx.toNat]? = some sl → sl.buffer.len ≠ 0#40 →
      exec (.start idx w h v qt) s = .next { s with
        respPort := s.respPort ++ [0#8 ++ idx ++ 0x01#8 ++ 1#8], fault := 1#8, halted := true }) ∧
    (∀ sl most, s.slots[idx.toNat]? = some sl → sl.buffer.len = 0#40 → s.planeBytesMax = some most →
      most < w.toNat * h.toNat * 64 →
      exec (.start idx w h v qt) s = .next { s with
        respPort := s.respPort ++ [0#8 ++ idx ++ 0x01#8 ++ 6#8], fault := 6#8, halted := true }) ∧
    (∀ sl, s.slots[idx.toNat]? = some sl → sl.buffer.len = 0#40 →
      (∀ most, s.planeBytesMax = some most → w.toNat * h.toNat * 64 ≤ most) →
      exec (.start idx w h v qt) s = .next { s with
        slots := s.slots.set idx.toNat
          { cursor := 0#40
            buffer := { len := BitVec.ofNat 40 (w.toNat * h.toNat * 64), cells := [] }
            desc := some { gridWidth := w, gridHeight := h, verticalSamplingFactor := v }
            qt := some qt
            active := true }
        respPort := s.respPort ++ [0#8 ++ idx ++ 0x01#8 ++ 0#8] })

/-- Rule R107: after a successful START the plane has exactly `w * h * 64` bytes and every one of them is 0, whatever the
slot held before (rule R106). -/
def Obligations.StartedPlaneIsZeroAndExact : Prop :=
  ∀ (idx : Index) (w h : Half) (v : BitVec 8) (qt : QTable) (s t : State), s.halted = false →
    exec (.start idx w h v qt) s = .next t → t.halted = false →
    ∃ sl, t.slots[idx.toNat]? = some sl ∧ sl.buffer.len.toNat = w.toNat * h.toNat * 64 ∧
      ∀ o, o < w.toNat * h.toNat * 64 → sl.buffer.read o = 0#8

/-- Rules R28, R29, R105: START's frame. Whatever it answers, it leaves every other slot, the command port, the reset input
and the capacity; and it leaves the fault latch and the halt, or it leaves every slot. -/
def Obligations.StartFrame : Prop :=
  ∀ (idx : Index) (w h : Half) (v : BitVec 8) (qt : QTable) (s t : State), exec (.start idx w h v qt) s = .next t →
    t.slots.length = s.slots.length ∧ (∀ j : Nat, j ≠ idx.toNat → t.slots[j]? = s.slots[j]?) ∧
    t.cmdPort = s.cmdPort ∧ t.resetIn = s.resetIn ∧ t.planeBytesMax = s.planeBytesMax ∧
    (t.fault = s.fault ∧ t.halted = s.halted ∨ t.slots = s.slots)

/-- Rule R108: after a START that succeeded with `w * h > 0`, and any commands that do not extract the slot, a second
START on it fails with SlotBusy. -/
def Obligations.SecondStartIsSlotBusy : Prop :=
  ∀ (idx : Index) (w h w' h' : Half) (v v' : BitVec 8) (qt qt' : QTable) (between : List Instr) (s t : State),
    0 < w.toNat * h.toNat → s.halted = false → .getResult idx ∉ between →
    execAll (.start idx w h v qt :: between) s = .next t → t.halted = false →
    exec (.start idx w' h' v' qt') t = .next { t with
      respPort := t.respPort ++ [0#8 ++ idx ++ 0x01#8 ++ 1#8], fault := 1#8, halted := true }

/-- Rule R109: a zero-size plane leaves the slot active with an empty buffer, so that a second START on it succeeds with
no GET_RESULT between. -/
def Obligations.ZeroSizeSessionRestarts : Prop :=
  ∀ (idx : Index) (w h w' h' : Half) (v v' : BitVec 8) (qt qt' : QTable) (s : State) (sl : Slot),
    s.halted = false → s.slots[idx.toNat]? = some sl → sl.buffer.len = 0#40 →
    (w = 0#16 ∨ h = 0#16) → (∀ most, s.planeBytesMax = some most → w'.toNat * h'.toNat * 64 ≤ most) →
    ∃ t, execAll [.start idx w h v qt, .start idx w' h' v' qt'] s = .next t ∧ t.halted = false ∧
      t.respPort = s.respPort ++ [0#8 ++ idx ++ 0x01#8 ++ 0#8, 0#8 ++ idx ++ 0x01#8 ++ 0#8] ∧
      ∃ sl', t.slots[idx.toNat]? = some sl' ∧ sl'.active = true ∧ sl'.buffer.len.toNat = w'.toNat * h'.toNat * 64

/-! ### APPEND_ROW -/

/-- Rules R123 to R126, R128, R131 to R135, R171: APPEND_ROW in full. Its four checks, in order: the first that fails ends
the command with its status code, and no slot changes. All passed: output position `k` of block `b`'s transform stands
at plane line `8 * (b / w) + k / 8` of the row and column `8 * (b mod w) + k mod 8`, no other byte of the plane changed,
the cursor is one row on, and the response is the OK status word. The plane is one in canonical form, as every step
keeps it. -/
def Obligations.AppendRowChecksThenPlacesEveryBlock : Prop :=
  ∀ (idx : Index) (c : List Coef) (s : State),
    (s.slots.length ≤ idx.toNat →
      exec (.appendRow idx c) s = .next { s with
        respPort := s.respPort ++ [0#8 ++ idx ++ 0x02#8 ++ 3#8], fault := 3#8, halted := true }) ∧
    (∀ sl, s.slots[idx.toNat]? = some sl → sl.active = false →
      exec (.appendRow idx c) s = .next { s with
        respPort := s.respPort ++ [0#8 ++ idx ++ 0x02#8 ++ 4#8], fault := 4#8, halted := true }) ∧
    (∀ sl d qt, s.slots[idx.toNat]? = some sl → sl.active = true → sl.desc = some d → sl.qt = some qt →
      c.length ≠ d.gridWidth.toNat * d.verticalSamplingFactor.toNat * 64 →
      exec (.appendRow idx c) s = .next { s with
        respPort := s.respPort ++ [0#8 ++ idx ++ 0x02#8 ++ 2#8], fault := 2#8, halted := true }) ∧
    (∀ sl d qt, s.slots[idx.toNat]? = some sl → sl.active = true → sl.desc = some d → sl.qt = some qt →
      c.length = d.gridWidth.toNat * d.verticalSamplingFactor.toNat * 64 →
      sl.buffer.len.toNat < sl.cursor.toNat + c.length →
      exec (.appendRow idx c) s = .next { s with
        respPort := s.respPort ++ [0#8 ++ idx ++ 0x02#8 ++ 5#8], fault := 5#8, halted := true }) ∧
    (∀ sl d qt, s.slots[idx.toNat]? = some sl → sl.active = true → sl.desc = some d → sl.qt = some qt →
      c.length = d.gridWidth.toNat * d.verticalSamplingFactor.toNat * 64 →
      sl.cursor.toNat + c.length ≤ sl.buffer.len.toNat → sl.buffer.wf = true →
      ∃ sl', exec (.appendRow idx c) s = .next { s with
          slots := s.slots.set idx.toNat sl'
          respPort := s.respPort ++ [0#8 ++ idx ++ 0x02#8 ++ 0#8] } ∧
        sl'.cursor.toNat = sl.cursor.toNat + c.length ∧
        sl'.desc = sl.desc ∧ sl'.qt = sl.qt ∧ sl'.active = true ∧ sl'.buffer.len = sl.buffer.len ∧
        (∀ b, b < d.gridWidth.toNat * d.verticalSamplingFactor.toNat → ∀ k : Fin 64,
          sl'.buffer.read
              (sl.cursor.toNat + (b / d.gridWidth.toNat * 8 + k.val / 8) * (d.gridWidth.toNat * 8) +
                (b % d.gridWidth.toNat * 8 + k.val % 8)) =
            (idct (Vector.ofFn fun j => c.getD (64 * b + j.val) 0#16) qt)[k]) ∧
        ∀ o, o < sl.cursor.toNat ∨ sl.cursor.toNat + c.length ≤ o → sl'.buffer.read o = sl.buffer.read o)

/-- Rules R28, R29, R60, R136: APPEND_ROW's frame, on every state. Every byte of the slot's plane whose offset is not one
that the row's block writes go to is unchanged; so are the plane's length, `desc`, `qt` and `active`, every other slot,
the command port, the reset input and the capacity; and it leaves the fault latch and the halt, or it leaves every
slot. -/
def Obligations.AppendRowFrame : Prop :=
  ∀ (idx : Index) (c : List Coef) (s t : State), exec (.appendRow idx c) s = .next t →
    t.slots.length = s.slots.length ∧ (∀ j : Nat, j ≠ idx.toNat → t.slots[j]? = s.slots[j]?) ∧
    t.cmdPort = s.cmdPort ∧ t.resetIn = s.resetIn ∧ t.planeBytesMax = s.planeBytesMax ∧
    (t.fault = s.fault ∧ t.halted = s.halted ∨ t.slots = s.slots) ∧
    ∀ sl, s.slots[idx.toNat]? = some sl →
      ∃ sl', t.slots[idx.toNat]? = some sl' ∧ sl'.desc = sl.desc ∧ sl'.qt = sl.qt ∧ sl'.active = sl.active ∧
        sl'.buffer.len = sl.buffer.len ∧
        ∀ d, sl.desc = some d → ∀ o,
          (∀ b, b < d.blockCount → ∀ k : Fin 64, sampleOffset d.gridWidth.toNat sl.cursor.toNat b k ≠ o) →
          sl'.buffer.read o = sl.buffer.read o

/-- Rules R60, R130: over one row, `(block, position) ↦ offset` is one-to-one from the row's samples onto the offsets
from the cursor to the cursor plus `rowBytes`. -/
def Obligations.RowOffsetsAreABijection : Prop :=
  ∀ w v cur : Nat,
    (∀ b, b < w * v → ∀ k : Fin 64, cur ≤ sampleOffset w cur b k ∧ sampleOffset w cur b k < cur + w * v * 64) ∧
    (∀ b b', b < w * v → b' < w * v → ∀ k k' : Fin 64,
      sampleOffset w cur b k = sampleOffset w cur b' k' → b = b' ∧ k = k') ∧
    (∀ o, cur ≤ o → o < cur + w * v * 64 → ∃ b, b < w * v ∧ ∃ k : Fin 64, sampleOffset w cur b k = o)

/-- Rule R63: the blocks of one row may be written in any order; the plane is the same, whatever the blocks' samples. -/
def Obligations.BlockOrderDoesNotMatter : Prop :=
  ∀ (w v cur : Nat) (f : Nat → SampleBlock) (p : Plane) (order : List Nat),
    p.wf = true → cur + w * v * 64 ≤ p.len.toNat → order.Perm (List.range (w * v)) →
    placeBlocks w cur f order p = placeBlocks w cur f (List.range (w * v)) p

/-- Rule R138: a row of no blocks (`w = 0` or `v = 0`) is accepted with `N = 0` and changes nothing but the response
port, as often as it comes. -/
def Obligations.EmptyRowsChangeNothing : Prop :=
  ∀ (n : Nat) (idx : Index) (s : State) (sl : Slot) (d : Desc) (qt : QTable),
    s.halted = false → s.slots[idx.toNat]? = some sl → sl.active = true → sl.desc = some d → sl.qt = some qt →
    (d.gridWidth = 0#16 ∨ d.verticalSamplingFactor = 0#8) → sl.cursor.toNat ≤ sl.buffer.len.toNat →
    execAll (List.replicate n (.appendRow idx [])) s = .next { s with
      respPort := s.respPort ++ List.replicate n (0#8 ++ idx ++ 0x02#8 ++ 0#8) }

/-- Rule R122: on an all-zero block the transform gives `FLAT_ZERO` at every position, whatever the table. -/
def Obligations.ZeroBlockIsFlat : Prop :=
  ∀ (qt : QTable) (k : Fin 64), (idct (Vector.replicate 64 0#16) qt)[k] = Config.flatZero

/-- Rule R120: the transform sees its operands only through the dequantized products `c[k] * q[k]`, `c[k]` signed and
`q[k]` unsigned, each of absolute value below 2^31. -/
def Obligations.TransformSeesDequantizedProductsOnly : Prop :=
  (∀ (coefs coefs' : CoefBlock) (qt qt' : QTable),
    (∀ k : Fin 64, coefs[k].toInt * (qt[k].toNat : Int) = coefs'[k].toInt * (qt'[k].toNat : Int)) →
    idct coefs qt = idct coefs' qt') ∧
  ∀ (coefs : CoefBlock) (qt : QTable) (k : Fin 64), |coefs[k].toInt * (qt[k].toNat : Int)| < 2 ^ 31

/-- Rules R27, R107, R135, R137, R140: a session. START on a slot with an empty buffer, then rows of the right length
that fit, all succeed; after them the cursor is the number of rows times `rowBytes`, the plane's length is the same, and
every byte of the plane is known: in the rows' range the sample of its row, block and position, beyond it 0. -/
def Obligations.SessionFillsThePlaneRowByRow : Prop :=
  ∀ (idx : Index) (d : Desc) (qt : QTable) (rows : List (List Coef)) (s : State) (sl : Slot),
    s.halted = false → s.slots[idx.toNat]? = some sl → sl.buffer.len = 0#40 →
    (∀ most, s.planeBytesMax = some most → d.planeBytes ≤ most) →
    (∀ c ∈ rows, c.length = d.rowBytes) → rows.length * d.rowBytes ≤ d.planeBytes →
    ∃ t sl', execAll (sessionCommands idx d qt rows) s = .next t ∧ t.halted = false ∧
      t.slots[idx.toNat]? = some sl' ∧ sl'.active = true ∧
      sl'.cursor.toNat = rows.length * d.rowBytes ∧ sl'.buffer.len.toNat = d.planeBytes ∧
      ∀ o, o < d.planeBytes →
        sl'.buffer.read o =
          if o < rows.length * d.rowBytes then
            (idct (blockCoefs (rows.getD (o / d.rowBytes) []) (blockAt d.gridWidth.toNat (o % d.rowBytes))) qt)[
              positionAt d.gridWidth.toNat (o % d.rowBytes)]
          else 0#8

/-- Rules R138, R139, R167 (and test vectors S2, B12): with `w > 0` and `v > 0`, a session takes exactly `h div v` rows.
They all succeed and leave the cursor at `(h div v) * rowBytes`, which is the end of the plane when `v` divides `h`; one
row more raises OutOfBounds. -/
def Obligations.SessionHasRoomForItsRowsOnly : Prop :=
  ∀ (idx : Index) (d : Desc) (qt : QTable) (rows : List (List Coef)) (extra : List Coef) (s : State) (sl : Slot),
    s.halted = false → s.slots[idx.toNat]? = some sl → sl.buffer.len = 0#40 →
    (∀ most, s.planeBytesMax = some most → d.planeBytes ≤ most) →
    0 < d.gridWidth.toNat → 0 < d.verticalSamplingFactor.toNat →
    rows.length = d.gridHeight.toNat / d.verticalSamplingFactor.toNat →
    (∀ c ∈ rows, c.length = d.rowBytes) → extra.length = d.rowBytes →
    ∃ t sl', execAll (sessionCommands idx d qt rows) s = .next t ∧ t.halted = false ∧
      t.slots[idx.toNat]? = some sl' ∧ sl'.cursor.toNat = rows.length * d.rowBytes ∧
      sl'.buffer.len.toNat = d.planeBytes ∧
      (d.gridHeight.toNat % d.verticalSamplingFactor.toNat = 0 → sl'.cursor = sl'.buffer.len) ∧
      exec (.appendRow idx extra) t = .next { t with
        respPort := t.respPort ++ [0#8 ++ idx ++ 0x02#8 ++ 5#8], fault := 5#8, halted := true }

/-- Rule R137: the row appended at cursor `k * rowBytes` writes exactly the plane lines `8vk` to `8v(k+1) - 1`, every
column of them. A plane offset is `y * lineStride + x` with `x < lineStride` (rule R51). -/
def Obligations.RowWritesExactlyItsLines : Prop :=
  ∀ (d : Desc) (k x y : Nat), x < d.lineStride →
    ((∃ b, b < d.blockCount ∧ ∃ j : Fin 64,
        sampleOffset d.gridWidth.toNat (k * d.rowBytes) b j = y * d.lineStride + x) ↔
      8 * d.verticalSamplingFactor.toNat * k ≤ y ∧ y < 8 * d.verticalSamplingFactor.toNat * (k + 1))

/-- Rule R127: the exact bounds of the geometry, which 40-bit unsigned arithmetic holds: blocks, bytes of a row, bytes of
a plane, a cursor inside a plane plus one row, and every offset a row that fits writes to. -/
def Obligations.GeometryNeverWraps : Prop :=
  ∀ d : Desc, d.blockCount ≤ 16711425 ∧ d.rowBytes ≤ 1069531200 ∧ d.rowBytes < 2 ^ 31 ∧
    d.planeBytes ≤ 65535 * 65535 * 64 ∧ d.planeBytes < 2 ^ 38 ∧
    ∀ cursor : Nat, cursor ≤ d.planeBytes → cursor + d.rowBytes < 2 ^ 39 ∧
      (cursor + d.rowBytes ≤ d.planeBytes → ∀ b, b < d.blockCount → ∀ k : Fin 64,
        sampleOffset d.gridWidth.toNat cursor b k < d.planeBytes)

/-! ### GET_RESULT -/

/-- Rule R150: GET_RESULT in full. An index with no slot is InvalidIndex (rule R156); otherwise the response is the status
word, the 40-bit length in two words and the plane's bytes four to a word, and the slot is drained: an empty buffer, not
active, every other field as it was (rule R151). -/
def Obligations.GetResultReturnsThePlane : Prop :=
  ∀ (idx : Index) (s : State),
    (s.slots.length ≤ idx.toNat →
      exec (.getResult idx) s = .next { s with
        respPort := s.respPort ++ [0#8 ++ idx ++ 0x03#8 ++ 3#8], fault := 3#8, halted := true }) ∧
    (∀ sl, s.slots[idx.toNat]? = some sl →
      exec (.getResult idx) s = .next { s with
        slots := s.slots.set idx.toNat { sl with buffer := { len := 0#40, cells := [] }, active := false }
        respPort := s.respPort ++
          ((0#8 ++ idx ++ 0x03#8 ++ 0#8) :: sl.buffer.len.extractLsb' 0 32 ::
            (sl.buffer.len.extractLsb' 32 8).zeroExtend 32 ::
            (List.range (sl.buffer.len.toNat / 4)).map fun k =>
              sl.buffer.read (4 * k + 3) ++ sl.buffer.read (4 * k + 2) ++ sl.buffer.read (4 * k + 1) ++
                sl.buffer.read (4 * k)) })

/-- Rules R54, R82: a data response, read back. It has `3 + L/4` words; word 0 is the OK status word; words 1 and 2 give
the 40-bit length; byte `j` of data word `k` is plane byte `4k + j`. -/
def Obligations.DataResponseCarriesEveryByte : Prop :=
  ∀ (idx : Index) (p : Plane),
    (dataResponse 0x03#8 idx p).length = 3 + p.len.toNat / 4 ∧
    (dataResponse 0x03#8 idx p).getD 0 0#32 = 0#8 ++ idx ++ 0x03#8 ++ 0#8 ∧
    ((dataResponse 0x03#8 idx p).getD 1 0#32).toNat + 2 ^ 32 * ((dataResponse 0x03#8 idx p).getD 2 0#32).toNat =
      p.len.toNat ∧
    ∀ k j, k < p.len.toNat / 4 → j < 4 →
      byteOfWord ((dataResponse 0x03#8 idx p).getD (3 + k) 0#32) j = p.read (4 * k + j)

/-- Rule R152: GET_RESULT on a slot whose buffer is empty succeeds and answers three words, the length 0 and no data; so
does a second GET_RESULT in a row. -/
def Obligations.EmptyResultIsThreeWords : Prop :=
  ∀ (idx : Index) (s : State) (sl : Slot), s.halted = false → s.slots[idx.toNat]? = some sl →
    (sl.buffer.len = 0#40 → ∃ t, exec (.getResult idx) s = .next t ∧ t.halted = false ∧
      t.respPort = s.respPort ++ [0#8 ++ idx ++ 0x03#8 ++ 0#8, 0#32, 0#32]) ∧
    ∃ t u, exec (.getResult idx) s = .next t ∧ exec (.getResult idx) t = .next u ∧ u.halted = false ∧
      u.respPort = t.respPort ++ [0#8 ++ idx ++ 0x03#8 ++ 0#8, 0#32, 0#32] ∧ u.slots = t.slots

/-- Rules R28, R29, R151: GET_RESULT's frame. The cursor, the descriptor and the table of its slot are unchanged; so are
every other slot, the command port, the reset input and the capacity; and it leaves the fault latch and the halt, or it
leaves every slot. -/
def Obligations.GetResultFrame : Prop :=
  ∀ (idx : Index) (s t : State), exec (.getResult idx) s = .next t →
    t.slots.length = s.slots.length ∧ (∀ j : Nat, j ≠ idx.toNat → t.slots[j]? = s.slots[j]?) ∧
    t.cmdPort = s.cmdPort ∧ t.resetIn = s.resetIn ∧ t.planeBytesMax = s.planeBytesMax ∧
    (t.fault = s.fault ∧ t.halted = s.halted ∨ t.slots = s.slots) ∧
    ∀ sl, s.slots[idx.toNat]? = some sl →
      ∃ sl', t.slots[idx.toNat]? = some sl' ∧ sl'.cursor = sl.cursor ∧ sl'.desc = sl.desc ∧ sl'.qt = sl.qt

/-- Rule R163: an APPEND_ROW on a slot with no START since reset, or with a GET_RESULT since its last START, fails with
NotStarted, whatever its coefficients and whatever other commands ran. -/
def Obligations.AppendWithoutASessionIsNotStarted : Prop :=
  ∀ (idx : Index) (between : List Instr) (c : List Coef), (∀ w h v qt, .start idx w h v qt ∉ between) →
    (∀ (n : Nat) (cap : Option Nat) (t : State), idx.toNat < n →
      execAll between (State.resetOf n cap) = .next t → t.halted = false →
      exec (.appendRow idx c) t = .next { t with
        respPort := t.respPort ++ [0#8 ++ idx ++ 0x02#8 ++ 4#8], fault := 4#8, halted := true }) ∧
    (∀ s t : State, s.halted = false → execAll (.getResult idx :: between) s = .next t → t.halted = false →
      exec (.appendRow idx c) t = .next { t with
        respPort := t.respPort ++ [0#8 ++ idx ++ 0x02#8 ++ 4#8], fault := 4#8, halted := true })

/-- Rules R62, R153, R154: extraction in mid-session. After START and any number of rows that fit, GET_RESULT succeeds and
returns the whole plane as it stands: `w * h * 64` bytes, in the rows' range the samples of its rows, and 0 beyond; after
it an APPEND_ROW on the slot fails with NotStarted. -/
def Obligations.MidSessionResultIsThePlaneAsItStands : Prop :=
  ∀ (idx : Index) (d : Desc) (qt : QTable) (rows : List (List Coef)) (s : State) (sl : Slot),
    s.halted = false → s.slots[idx.toNat]? = some sl → sl.buffer.len = 0#40 →
    (∀ most, s.planeBytesMax = some most → d.planeBytes ≤ most) →
    (∀ c ∈ rows, c.length = d.rowBytes) → rows.length * d.rowBytes ≤ d.planeBytes →
    ∃ t p, execAll (sessionCommands idx d qt rows ++ [.getResult idx]) s = .next t ∧ t.halted = false ∧
      t.respPort = s.respPort ++ (0#8 ++ idx ++ 0x01#8 ++ 0#8) ::
        List.replicate rows.length (0#8 ++ idx ++ 0x02#8 ++ 0#8) ++ dataResponse 0x03#8 idx p ∧
      p.len.toNat = d.gridWidth.toNat * d.gridHeight.toNat * 64 ∧
      (∀ o, o < p.len.toNat → p.read o =
        if o < rows.length * d.rowBytes then
          (idct (blockCoefs (rows.getD (o / d.rowBytes) []) (blockAt d.gridWidth.toNat (o % d.rowBytes))) qt)[
            positionAt d.gridWidth.toNat (o % d.rowBytes)]
        else 0#8) ∧
      ∀ c, exec (.appendRow idx c) t = .next { t with
        respPort := t.respPort ++ [0#8 ++ idx ++ 0x02#8 ++ 4#8], fault := 4#8, halted := true }

/-- Rules R122, R150 and test program Prog1, for every plane: a full session of zero coefficients, then GET_RESULT,
answers one OK word a command and a plane that is `FLAT_ZERO` in every byte. -/
def Obligations.ZeroSessionReturnsAFlatPlane : Prop :=
  ∀ (idx : Index) (d : Desc) (qt : QTable) (rows : Nat) (s : State) (sl : Slot),
    s.halted = false → s.slots[idx.toNat]? = some sl → sl.buffer.len = 0#40 →
    (∀ most, s.planeBytesMax = some most → d.planeBytes ≤ most) →
    rows * d.verticalSamplingFactor.toNat = d.gridHeight.toNat →
    ∃ t, execAll (sessionCommands idx d qt (List.replicate rows (zeroCoefs d.rowBytes)) ++ [.getResult idx]) s =
        .next t ∧ t.halted = false ∧
      t.respPort = s.respPort ++ (0#8 ++ idx ++ 0x01#8 ++ 0#8) :: List.replicate rows (0#8 ++ idx ++ 0x02#8 ++ 0#8) ++
        ((0#8 ++ idx ++ 0x03#8 ++ 0#8) :: BitVec.ofNat 32 d.planeBytes ::
          BitVec.ofNat 32 (d.planeBytes / 2 ^ 32) ::
          List.replicate (d.planeBytes / 4)
            (Config.flatZero ++ Config.flatZero ++ Config.flatZero ++ Config.flatZero))

/-! ### The whole machine -/

/-- The invariant holds right after reset, whatever the unit's parameters (rules R8, R39). -/
def Obligations.ResetSatisfiesTheInvariant : Prop :=
  State.reset.Inv ∧ ∀ n cap, 1 ≤ n → n ≤ 256 → (State.resetOf n cap).Inv

/-- Rules R25, R27, R32 to R37: from every state that satisfies the invariant, a step leads to one that does. -/
def Obligations.StepKeepsTheInvariant : Prop :=
  ∀ s t : State, s.Inv → step s = .next t → t.Inv

/-- Every step keeps every plane in canonical form: offsets rising, inside the plane, no listed 0 (log entry 3). -/
def Obligations.StepKeepsPlanesCanonical : Prop :=
  ∀ s t : State, Memory.wf s = true → step s = .next t → Memory.wf t = true

/-- Rules R80, R166, R175: the unit never stops dead. In every state that satisfies the invariant, a step has a next
state: an error is one too. -/
def Obligations.EveryStepAnswersANextState : Prop :=
  ∀ s : State, s.Inv → ∃ t, step s = .next t

/-- Rule R153: in every state that satisfies the invariant, a plane's length is 0 or `w * h * 64` for the descriptor its
slot holds, so it is a multiple of 64 and the last data word of a response is full (rule R82). -/
def Obligations.PlaneSizeIsZeroOrTheDescriptors : Prop :=
  ∀ (s : State) (sl : Slot), s.Inv → sl ∈ s.slots →
    64 ∣ sl.buffer.len.toNat ∧
      (sl.buffer.len = 0#40 ∨
        ∃ d, sl.desc = some d ∧ sl.buffer.len.toNat = d.gridWidth.toNat * d.gridHeight.toNat * 64)

/-- Log entry 7: on an active slot that lacks a descriptor or a table, which the invariant rules out, APPEND_ROW stops
with the model's own fault, whatever its coefficients. -/
def Obligations.AppendRowWithoutSessionStops : Prop :=
  ∀ (idx : Index) (c : List Coef) (s : State) (sl : Slot), s.slots[idx.toNat]? = some sl → sl.active = true →
    (sl.desc = none ∨ sl.qt = none) → exec (.appendRow idx c) s = .fault .activeWithoutSession ∧ ¬ s.Inv

/-- Rule R166 (and R165): a command that fails leaves every slot field as it was. It changes only the fault latch, the
halt and the response stream, by one status word with its `op` and `idx`. -/
def Obligations.FailedCommandIsPrecise : Prop :=
  ∀ (i : Instr) (s t : State), s.halted = false → exec i s = .next t → t.halted = true →
    ∃ e : Status, e ≠ .ok ∧
      t = { s with respPort := s.respPort ++ [statusWord e i.op i.idx], fault := e.code, halted := true }

/-- Rules R41, R81, R83: every command sends one response, which begins with the status word that carries its `op` and
`idx`; only a successful GET_RESULT sends more than that word; and the status is OK exactly when the unit goes on. -/
def Obligations.OneResponsePerCommand : Prop :=
  ∀ (i : Instr) (s t : State), s.halted = false → exec i s = .next t →
    ∃ (e : Status) (ws : List Word), t.respPort = s.respPort ++ (0#8 ++ i.idx ++ i.op ++ e.code) :: ws ∧
      (ws = [] ∨ e = .ok ∧ ∃ idx, i = .getResult idx) ∧ (e = .ok ↔ t.halted = false)

/-- Rule R28: slots are disjoint. A command writes no slot but the one it names; and what it does to that slot, to the
unit registers and to the response port does not depend on any other slot: on two units that agree on that slot, the
number of slots and the capacity, it does the same. -/
def Obligations.CommandsSeeOnlyTheirSlot : Prop :=
  ∀ (i : Instr) (s s' t : State), s.slots.length = s'.slots.length → s.planeBytesMax = s'.planeBytesMax →
    s.slots[i.idx.toNat]? = s'.slots[i.idx.toNat]? → exec i s = .next t →
    (∀ j : Nat, j ≠ i.idx.toNat → t.slots[j]? = s.slots[j]?) ∧
    ∃ (t' : State) (ws : List Word), exec i s' = .next t' ∧ t'.slots[i.idx.toNat]? = t.slots[i.idx.toNat]? ∧
      t.respPort = s.respPort ++ ws ∧ t'.respPort = s'.respPort ++ ws ∧
      (t.fault = s.fault ∧ t.halted = s.halted ∧ t'.fault = s'.fault ∧ t'.halted = s'.halted ∨
        t.fault = t'.fault ∧ t.halted = true ∧ t'.halted = true)

/-- Rule R30: stale values never reach a response or a plane. Change the cursor, the descriptor and the table of an
inactive slot in any way: every command does the same to the response port, the unit registers, the other slots and
that slot's buffer and `active`. -/
def Obligations.StaleFieldsAreUnobservable : Prop :=
  ∀ (i : Instr) (j : Index) (sl : Slot) (cursor : Offset) (desc : Option Desc) (qt : Option QTable) (s t : State),
    s.slots[j.toNat]? = some sl → sl.active = false → exec i s = .next t →
    ∃ t' slj slj',
      exec i { s with slots := s.slots.set j.toNat { sl with cursor := cursor, desc := desc, qt := qt } } = .next t' ∧
      t'.respPort = t.respPort ∧ t'.fault = t.fault ∧ t'.halted = t.halted ∧
      (∀ k : Nat, k ≠ j.toNat → t'.slots[k]? = t.slots[k]?) ∧
      t.slots[j.toNat]? = some slj ∧ t'.slots[j.toNat]? = some slj' ∧
      slj'.buffer = slj.buffer ∧ slj'.active = slj.active

/-- Rules R36, R40, R62, R197: the unit executes the commands on its port one at a time, in port order, each in full.
Commands that all succeed, written as words ahead of any response, run in as many steps as there are commands and leave
what executing them in order leaves. That any number
of words may wait on the port is the model's choice (log entry 11). -/
def Obligations.PortCommandsRunInOrder : Prop :=
  ∀ (is : List Instr) (s t : State), (∀ i ∈ is, i.wf = true) → s.resetIn = false → s.halted = false →
    s.cmdPort = [] → execAll is s = .next t → t.halted = false →
    stepN is.length (s.hostWrite (encodeAll is)) = .next t

/-- Rule R194: every run ends in one of the three outcomes, whatever words the host writes: complete, with every word read
and no halt; faulted, with the code in the latch and that command's status word the last response word; or waiting on an
incomplete command. -/
def Obligations.EveryRunEndsInOneOfThreeOutcomes : Prop :=
  ∀ (slots : Nat) (cap : Option Nat) (ws : List Word), 1 ≤ slots → slots ≤ 256 →
    ∃ t, runWords slots cap ws = .next t ∧
      (t.outcome = .complete ∧ t.halted = false ∧ t.fault = 0#8 ∧ t.cmdPort = [] ∨
        (∃ (e : Status) (op : BitVec 8) (idx : Index), e ≠ .ok ∧ t.outcome = .faulted e.code ∧ t.halted = true ∧
          t.fault = e.code ∧ t.respPort.getLast? = some (statusWord e op idx)) ∨
        t.outcome = .waiting ∧ t.halted = false ∧ t.fault = 0#8 ∧ t.cmdPort ≠ [] ∧
          decode t.cmdPort = .incomplete ∧ step t = .next t)

/-- Rules R40, R41, R195, R197, and log entry 11: the ports are streams. Words the host writes behind a command that is
already there, and response words it reads meanwhile, change nothing in what the step does. That the ports take any
number of words, and that a response word can be read at once, is the model's choice: the spec gives the ports no depth
and fixes no moment at which a response becomes visible (rule R194). -/
def Obligations.HostMayWriteAheadAndReadAtAnyTime : Prop :=
  ∀ s t : State, s.resetIn = false → step s = .next t →
    (∀ ws, s.halted = true ∨ decode s.cmdPort ≠ .incomplete → step (s.hostWrite ws) = .next (t.hostWrite ws)) ∧
    (∀ w s', s.hostRead = some (w, s') → ∃ t', t.hostRead = some (w, t') ∧ step s' = .next t')

/-- Rules R68, R178: units share no state. A step of one unit changes no other, and steps of two units may be taken in
either order. -/
def Obligations.UnitsAreIndependent : Prop :=
  ∀ (sys : System) (j k : Nat), j ≠ k →
    (sys.stepUnit j).units[k]? = sys.units[k]? ∧ (sys.stepUnit j).stepUnit k = (sys.stepUnit k).stepUnit j

/-! ### Runs that go on -/

/-- Rule R198, with rules R81 and R190: in a weakly fair run, a unit that is not halted, with reset not asserted and a
whole or an illegal command at the head of its port, eventually takes its turn, with that command and its slots as they were,
and sends the response; unless the host asserts reset first. What a fair run is, with an asserted reset a turn too, is
log entry 17's. -/
def Obligations.FairRunExecutesTheHeadCommand : Prop :=
  ∀ (σ : Nat → State) (mv : Nat → Move), IsRun σ mv → WeaklyFair σ mv →
    ∀ n, (σ n).resetIn = false → (σ n).halted = false → decode (σ n).cmdPort ≠ .incomplete →
      ∃ m, n ≤ m ∧ (∀ j, n ≤ j → j < m → mv j ≠ .step ∧ mv j ≠ .reset) ∧
        (mv m = .reset ∨
          mv m = .step ∧ (σ m).slots = (σ n).slots ∧
            ((∃ i k, decode (σ n).cmdPort = .command i k ∧ exec i ((σ m).consume k) = .next (σ (m + 1)) ∧
                ∃ (e : Status) (ws : List Word),
                  (σ (m + 1)).respPort = (σ m).respPort ++ statusWord e i.op i.idx :: ws) ∨
              ∃ op idx k, decode (σ n).cmdPort = .illegal op idx k ∧
                σ (m + 1) = ((σ m).consume k).raise .illegalCommand op idx))

/-- Rule R198: the assumption is never out of reach, and no reset is needed to meet it. From every state that satisfies
the invariant, whatever words the host goes on writing, for ever, there is a weakly fair run with no reset in which it
writes them. The unit's turns in it are its commands, so each of those must have a next state: that is what the
invariant gives. The model's choice: that a host may write any words at every second move for ever, since the ports take
any number of words (log entry 11) and the spec says nothing of a run the host never finishes writing (rule R194); and
that fairness counts an asserted reset as a turn too (log entry 17). -/
def Obligations.FairRunsExist : Prop :=
  ∀ (s : State) (ws : Nat → List Word), s.Inv →
    ∃ (σ : Nat → State) (mv : Nat → Move), σ 0 = s ∧ (∀ n, mv (2 * n) = .write (ws n)) ∧ (∀ n, mv n ≠ .reset) ∧
      IsRun σ mv ∧ WeaklyFair σ mv

/-- Rules R68, R178, R198: in a run of several units, what happens to one of them is a run of that unit by itself, in which
the other units' moves are idle; and if the system's run is weakly fair, so is the unit's. What a
fair run is, is log entry 17's. -/
def Obligations.SystemRunIsARunOfEachUnit : Prop :=
  ∀ (σ : Nat → System) (who : Nat → Nat) (mv : Nat → Move), System.IsRun σ who mv →
    ∀ (j : Nat) (u : State), (σ 0).units[j]? = some u →
      ∃ τ : Nat → State, τ 0 = u ∧ (∀ n, (σ n).units[j]? = some (τ n)) ∧ IsRun τ (System.movesOf j who mv) ∧
        (System.WeaklyFair σ who mv → WeaklyFair τ (System.movesOf j who mv))
end

