-- ==== Sys2Proof/Laws/Encoding.lean ====
section
/-!
SUPPORT. The fields of the words the encoder and the unit write, read back; packed payloads unpacked; and what the
decoder can answer.
-/

namespace Sys2Proof

/-! ### Fields of joined bits -/

/-- A field inside the low part of joined bits. -/
theorem extract_append_low {n m : Nat} (a : BitVec n) (b : BitVec m) {k w : Nat} (h : k + w ≤ m) :
    (a ++ b).extractLsb' k w = b.extractLsb' k w := by
  apply BitVec.eq_of_getLsbD_eq
  intro i hi
  simp [BitVec.getLsbD_append, show k + i < m by omega]

/-- A field inside the high part of joined bits. -/
theorem extract_append_high {n m : Nat} (a : BitVec n) (b : BitVec m) (k w : Nat) :
    (a ++ b).extractLsb' (m + k) w = a.extractLsb' k w := by
  apply BitVec.eq_of_getLsbD_eq
  intro i hi
  simp [BitVec.getLsbD_append, show ¬ m + k + i < m by omega, show m + k + i - m = k + i by omega]

theorem extract_all {n : Nat} (a : BitVec n) : a.extractLsb' 0 n = a := by
  apply BitVec.eq_of_getLsbD_eq
  intro i hi
  simp [hi]

/-- Joined bits are their two fields joined. -/
theorem append_extract {n m : Nat} (a : BitVec (n + m)) : a.extractLsb' m n ++ a.extractLsb' 0 m = a := by
  apply BitVec.eq_of_getLsbD_eq
  intro i hi
  simp

/-- A field of a field. -/
theorem extract_extract {n : Nat} (a : BitVec n) {k w k' w' : Nat} (h : k' + w' ≤ w) :
    (a.extractLsb' k w).extractLsb' k' w' = a.extractLsb' (k + k') w' := by
  apply BitVec.eq_of_getLsbD_eq
  intro i hi
  simp [show k' + i < w by omega, Nat.add_assoc]

/-! ### Fields -/

@[simp] theorem fieldOp_commandWord (op : BitVec 8) (idx : Index) : fieldOp (commandWord op idx) = op :=
  (extract_append_low (0#16 ++ idx) op (Nat.le_refl 8)).trans (extract_all op)

@[simp] theorem fieldIdx_commandWord (op : BitVec 8) (idx : Index) : fieldIdx (commandWord op idx) = idx :=
  (extract_append_high (0#16 ++ idx) op 0 8).trans
    ((extract_append_low 0#16 idx (Nat.le_refl 8)).trans (extract_all idx))

@[simp] theorem fieldRsv0_commandWord (op : BitVec 8) (idx : Index) : fieldRsv0 (commandWord op idx) = 0#16 :=
  (extract_append_high (0#16 ++ idx) op 8 16).trans ((extract_append_high 0#16 idx 0 16).trans (extract_all _))

@[simp] theorem lowHalf_pairWord (lo hi : Half) : lowHalf (pairWord lo hi) = lo :=
  (extract_append_low hi lo (Nat.le_refl 16)).trans (extract_all lo)

@[simp] theorem highHalf_pairWord (lo hi : Half) : highHalf (pairWord lo hi) = hi :=
  (extract_append_high hi lo 0 16).trans (extract_all hi)

@[simp] theorem fieldVsf_vsfWord (v : BitVec 8) : fieldVsf (vsfWord v) = v :=
  (extract_append_low 0#24 v (Nat.le_refl 8)).trans (extract_all v)

@[simp] theorem fieldRsv2_vsfWord (v : BitVec 8) : fieldRsv2 (vsfWord v) = 0#24 :=
  (extract_append_high 0#24 v 0 24).trans (extract_all _)

@[simp] theorem pairWord_halves (w : Word) : pairWord (lowHalf w) (highHalf w) = w :=
  append_extract (n := 16) (m := 16) w

/-- START's word 2 with its reserved bits 0 is the word of its field. -/
theorem vsfWord_field {w : Word} (h : fieldRsv2 w = 0#24) : vsfWord (fieldVsf w) = w := by
  have hw := append_extract (n := 24) (m := 8) w
  rw [show BitVec.extractLsb' 8 24 w = 0#24 from h] at hw
  exact hw

/-- A command word with its reserved bits 0 is the command word of its fields. -/
theorem commandWord_fields {w : Word} (h : fieldRsv0 w = 0#16) : commandWord (fieldOp w) (fieldIdx w) = w := by
  have hw := append_extract (n := 24) (m := 8) w
  have hu := append_extract (n := 16) (m := 8) (w.extractLsb' 8 24)
  rw [extract_extract w (by omega), extract_extract w (by omega),
    show BitVec.extractLsb' (8 + 8) 16 w = 0#16 from h] at hu
  rw [← hu] at hw
  exact hw

/-! ### Payloads -/

@[simp] theorem length_packCoefs (c : List Coef) : (packCoefs c).length = coefWords c.length := by
  induction c using packCoefs.induct with
  | case1 => rfl
  | case2 a => simp [packCoefs, coefWords]
  | case3 a b rest ih => simp only [packCoefs, List.length_cons, ih, coefWords]; omega

/-- Coefficients come back from the words that carry them, whatever words follow. -/
@[simp] theorem unpackCoefs_packCoefs (c : List Coef) (rest : List Word) :
    unpackCoefs c.length (packCoefs c ++ rest) = c := by
  induction c using packCoefs.induct with
  | case1 => simp [unpackCoefs]
  | case2 a => simp [packCoefs, unpackCoefs]
  | case3 a b t ih => simp [packCoefs, unpackCoefs, ih]

/-- As many coefficients as asked for, when the words are there. -/
theorem length_unpackCoefs {n : Nat} {ws : List Word} (h : coefWords n ≤ ws.length) :
    (unpackCoefs n ws).length = n := by
  induction n, ws using unpackCoefs.induct with
  | case1 ws => simp [unpackCoefs]
  | case2 n => simp [coefWords] at h
  | case3 w ws => simp [unpackCoefs]
  | case4 n w ws ih =>
    simp only [unpackCoefs, List.length_cons]
    rw [ih (by simp only [coefWords, List.length_cons] at h ⊢; omega)]

/-- Unpacking reads no word past those that carry the coefficients. -/
theorem unpackCoefs_append {n : Nat} {ws : List Word} (h : coefWords n ≤ ws.length) (more : List Word) :
    unpackCoefs n (ws ++ more) = unpackCoefs n ws := by
  induction n, ws using unpackCoefs.induct with
  | case1 ws => simp [unpackCoefs]
  | case2 n => simp [coefWords] at h
  | case3 w ws => simp [unpackCoefs]
  | case4 n w ws ih =>
    simp only [List.cons_append, unpackCoefs]
    rw [ih (by simp only [coefWords, List.length_cons] at h ⊢; omega)]

/-- An even number of coefficients packs back to the very words it came from. -/
theorem packCoefs_unpackCoefs {n : Nat} {ws : List Word} (h : coefWords n ≤ ws.length) (heven : n % 2 = 0) :
    packCoefs (unpackCoefs n ws) = ws.take (coefWords n) := by
  induction n, ws using unpackCoefs.induct with
  | case1 ws => simp [unpackCoefs, packCoefs, coefWords]
  | case2 n => simp [coefWords] at h
  | case3 w ws => omega
  | case4 n w ws ih =>
    have hc : coefWords (n + 2) = coefWords n + 1 := by simp only [coefWords]; omega
    simp only [unpackCoefs, packCoefs, pairWord_halves, hc, List.take_succ_cons]
    rw [ih (by simp only [hc, List.length_cons] at h; omega) (by omega)]

@[simp] theorem length_tableWords (qt : QTable) : (tableWords qt).length = 32 := by simp [tableWords]

/-- The table comes back from its words, whatever words follow. -/
@[simp] theorem tableOfWords_tableWords (qt : QTable) (rest : List Word) :
    tableOfWords (tableWords qt ++ rest) = qt := by
  apply Vector.ext
  intro k hk
  have hget : (tableWords qt ++ rest).getD (k / 2) 0#32 =
      pairWord (qt[2 * (k / 2)]'(by omega)) (qt[2 * (k / 2) + 1]'(by omega)) := by
    rw [List.getD_eq_getElem _ _ (by simp; omega), List.getElem_append_left (by simp; omega)]
    simp only [tableWords, List.getElem_ofFn]
  simp only [tableOfWords, Vector.getElem_ofFn]
  split
  · rw [hget, lowHalf_pairWord]; congr 1; omega
  · rw [hget, highHalf_pairWord]; congr 1; omega

/-- The table reads no word past its 32. -/
theorem tableOfWords_append {ws : List Word} (h : 32 ≤ ws.length) (more : List Word) :
    tableOfWords (ws ++ more) = tableOfWords ws := by
  apply Vector.ext
  intro k hk
  simp only [tableOfWords, Vector.getElem_ofFn, List.getD_append _ _ _ _ (show k / 2 < ws.length by omega)]

/-- The table packs back to the very words it came from. -/
theorem tableWords_tableOfWords {ws : List Word} (h : 32 ≤ ws.length) :
    tableWords (tableOfWords ws) = ws.take 32 := by
  apply List.ext_getElem
  · simp; omega
  · intro k h1 h2
    have hk : k < 32 := by simpa using h1
    simp only [tableWords, tableOfWords, List.getElem_ofFn, Vector.getElem_ofFn, List.getElem_take,
      show 2 * k % 2 = 0 by omega, show ¬ (2 * k + 1) % 2 = 0 by omega, if_true, if_false,
      show 2 * k / 2 = k by omega, show (2 * k + 1) / 2 = k by omega,
      List.getD_eq_getElem ws 0#32 (show k < ws.length by omega), pairWord_halves]

/-! ### What the decoder can answer -/

/-- The decoder answers a START only as rule R80 says. -/
theorem decodeStart_cases (idx : Index) (rest : List Word) :
    decodeStart idx rest = .incomplete ∧ rest.length < 34 ∨
    ∃ w1 w2 table, rest = w1 :: w2 :: table ∧ 32 ≤ table.length ∧
      (fieldRsv2 w2 ≠ 0#24 ∧ decodeStart idx rest = .illegal opStart idx 35 ∨
        fieldRsv2 w2 = 0#24 ∧ decodeStart idx rest =
          .command (.start idx (lowHalf w1) (highHalf w1) (fieldVsf w2) (tableOfWords table)) 35) := by
  match rest with
  | [] => exact .inl ⟨rfl, by simp⟩
  | [w1] => exact .inl ⟨rfl, by simp⟩
  | w1 :: w2 :: table =>
    by_cases hl : table.length < 32
    · exact .inl ⟨by simp [decodeStart, hl], by simp; omega⟩
    · refine .inr ⟨w1, w2, table, rfl, by omega, ?_⟩
      by_cases hr : fieldRsv2 w2 = 0#24
      · exact .inr ⟨hr, by simp [decodeStart, hl, hr]⟩
      · exact .inl ⟨hr, by simp [decodeStart, hl, hr]⟩

/-- The decoder answers an APPEND_ROW only as rule R80 says. -/
theorem decodeAppendRow_cases (idx : Index) (rest : List Word) :
    decodeAppendRow idx rest = .incomplete ∨
    ∃ w1 payload, rest = w1 :: payload ∧ coefWords w1.toNat ≤ payload.length ∧
      decodeAppendRow idx rest =
        .command (.appendRow idx (unpackCoefs w1.toNat payload)) (2 + coefWords w1.toNat) := by
  match rest with
  | [] => exact .inl rfl
  | w1 :: payload =>
    by_cases hl : payload.length < coefWords w1.toNat
    · exact .inl (by simp [decodeAppendRow, hl])
    · exact .inr ⟨w1, payload, rfl, by omega, by simp [decodeAppendRow, hl]⟩

theorem legalOp_iff (op : BitVec 8) : legalOp op = true ↔ op = opStart ∨ op = opAppendRow ∨ op = opGetResult := by
  simp [legalOp, or_assoc]

/-- The decoder answers only as rule R80 says. -/
theorem decode_cases (w0 : Word) (rest : List Word) :
    ((legalOp (fieldOp w0) = false ∨ fieldRsv0 w0 ≠ 0#16) ∧
      decode (w0 :: rest) = .illegal (fieldOp w0) (fieldIdx w0) 1) ∨
    (fieldRsv0 w0 = 0#16 ∧
      (fieldOp w0 = opGetResult ∧ decode (w0 :: rest) = .command (.getResult (fieldIdx w0)) 1 ∨
        fieldOp w0 = opStart ∧ decode (w0 :: rest) = decodeStart (fieldIdx w0) rest ∨
        fieldOp w0 = opAppendRow ∧ decode (w0 :: rest) = decodeAppendRow (fieldIdx w0) rest)) := by
  by_cases hbad : legalOp (fieldOp w0) = false ∨ fieldRsv0 w0 ≠ 0#16
  · exact .inl ⟨hbad, if_pos hbad⟩
  · have hd : decode (w0 :: rest) = if fieldOp w0 = opGetResult then .command (.getResult (fieldIdx w0)) 1
        else if fieldOp w0 = opStart then decodeStart (fieldIdx w0) rest
        else decodeAppendRow (fieldIdx w0) rest := if_neg hbad
    obtain ⟨hl, hr⟩ := not_or.1 hbad
    refine .inr ⟨not_not.1 hr, ?_⟩
    rcases (legalOp_iff _).1 (by simpa using hl) with h | h | h <;> rw [h] at hd ⊢
    · exact .inr (.inl ⟨rfl, hd⟩)
    · exact .inr (.inr ⟨rfl, hd⟩)
    · exact .inl ⟨rfl, hd⟩

/-- A command the decoder answers, with the fields it was read from (rules R71 to R76, R80). -/
theorem decode_command_cases {ws : List Word} {i : Instr} {n : Nat} (h : decode ws = .command i n) :
    ∃ w0 rest, ws = w0 :: rest ∧ fieldRsv0 w0 = 0#16 ∧
      ((fieldOp w0 = opGetResult ∧ i = .getResult (fieldIdx w0) ∧ n = 1) ∨
        (fieldOp w0 = opStart ∧ ∃ w1 w2 table, rest = w1 :: w2 :: table ∧ 32 ≤ table.length ∧ fieldRsv2 w2 = 0#24 ∧
          i = .start (fieldIdx w0) (lowHalf w1) (highHalf w1) (fieldVsf w2) (tableOfWords table) ∧ n = 35) ∨
        (fieldOp w0 = opAppendRow ∧ ∃ w1 payload, rest = w1 :: payload ∧ coefWords w1.toNat ≤ payload.length ∧
          i = .appendRow (fieldIdx w0) (unpackCoefs w1.toNat payload) ∧ n = 2 + coefWords w1.toNat)) := by
  match ws with
  | [] => simp [decode] at h
  | w0 :: rest =>
    refine ⟨w0, rest, rfl, ?_⟩
    rcases decode_cases w0 rest with ⟨-, h1⟩ | ⟨hr, ⟨ho, h1⟩ | ⟨ho, h1⟩ | ⟨ho, h1⟩⟩ <;> rw [h1] at h
    · simp at h
    · simp only [Decoded.command.injEq] at h
      exact ⟨hr, .inl ⟨ho, h.1.symm, h.2.symm⟩⟩
    · rcases decodeStart_cases (fieldIdx w0) rest with ⟨h', -⟩ | ⟨w1, w2, table, hrest, hl, ⟨-, h'⟩ | ⟨h2, h'⟩⟩ <;>
        rw [h'] at h
      · simp at h
      · simp at h
      · simp only [Decoded.command.injEq] at h
        exact ⟨hr, .inr (.inl ⟨ho, w1, w2, table, hrest, hl, h2, h.1.symm, h.2.symm⟩)⟩
    · rcases decodeAppendRow_cases (fieldIdx w0) rest with h' | ⟨w1, payload, hrest, hl, h'⟩ <;> rw [h'] at h
      · simp at h
      · simp only [Decoded.command.injEq] at h
        exact ⟨hr, .inr (.inr ⟨ho, w1, payload, hrest, hl, h.1.symm, h.2.symm⟩)⟩

/-- Once the words decide, more words behind them change nothing (rules R40, R80). -/
theorem decode_append_of {ws : List Word} (h : decode ws ≠ .incomplete) (more : List Word) :
    decode (ws ++ more) = decode ws := by
  match ws with
  | [] => exact absurd rfl h
  | w0 :: rest =>
    rw [List.cons_append]
    rcases decode_cases w0 rest with ⟨hb, h1⟩ | ⟨hr, ⟨ho, h1⟩ | ⟨ho, h1⟩ | ⟨ho, h1⟩⟩
    · rw [h1]
      exact if_pos hb
    · rw [h1]
      simp [decode, ho, hr, legalOp]
    · have h2 : decode (w0 :: (rest ++ more)) = decodeStart (fieldIdx w0) (rest ++ more) := by
        simp [decode, ho, hr, legalOp, opStart, opGetResult]
      rw [h1] at h ⊢
      rw [h2]
      rcases decodeStart_cases (fieldIdx w0) rest with ⟨h', -⟩ | ⟨w1, w2, table, rfl, hl, -⟩
      · exact absurd h' h
      · have hl' : ¬ (table ++ more).length < 32 := by simp; omega
        simp only [List.cons_append, decodeStart, hl', if_false, Nat.not_lt.2 hl, tableOfWords_append hl]
    · have h2 : decode (w0 :: (rest ++ more)) = decodeAppendRow (fieldIdx w0) (rest ++ more) := by
        simp [decode, ho, hr, legalOp, opAppendRow, opStart, opGetResult]
      rw [h1] at h ⊢
      rw [h2]
      rcases decodeAppendRow_cases (fieldIdx w0) rest with h' | ⟨w1, payload, rfl, hl, -⟩
      · exact absurd h' h
      · have hl' : ¬ (payload ++ more).length < coefWords w1.toNat := by simp; omega
        simp only [List.cons_append, decodeAppendRow, hl', if_false, Nat.not_lt.2 hl, unpackCoefs_append hl]

/-- How many words an answer of the decoder takes. -/
def Decoded.consumed : Decoded → Nat
  | .incomplete => 0
  | .illegal _ _ n => n
  | .command _ n => n

/-- Every answer of the decoder but the wait takes at least one word, and none takes more than there are. -/
theorem decode_consumed (ws : List Word) :
    (decode ws = .incomplete ∨ 1 ≤ (decode ws).consumed) ∧ (decode ws).consumed ≤ ws.length := by
  match ws with
  | [] => exact ⟨.inl rfl, Nat.le_refl 0⟩
  | w0 :: rest =>
    rcases decode_cases w0 rest with ⟨-, h⟩ | ⟨-, ⟨-, h⟩ | ⟨-, h⟩ | ⟨-, h⟩⟩
    · simp [h, Decoded.consumed]
    · simp [h, Decoded.consumed]
    · rcases decodeStart_cases (fieldIdx w0) rest with ⟨h', -⟩ | ⟨w1, w2, table, rfl, hl, ⟨-, h'⟩ | ⟨-, h'⟩⟩ <;>
        simp [h, h', Decoded.consumed]
      all_goals omega
    · rcases decodeAppendRow_cases (fieldIdx w0) rest with h' | ⟨w1, payload, rfl, hl, h'⟩ <;>
        simp [h, h', Decoded.consumed]
      omega

@[simp] theorem Instr.op_start (idx : Index) (w h : Half) (v : BitVec 8) (qt : QTable) :
    (Instr.start idx w h v qt).op = opStart := rfl
@[simp] theorem Instr.op_appendRow (idx : Index) (c : List Coef) : (Instr.appendRow idx c).op = opAppendRow := rfl
@[simp] theorem Instr.op_getResult (idx : Index) : (Instr.getResult idx).op = opGetResult := rfl
@[simp] theorem Instr.idx_start (idx : Index) (w h : Half) (v : BitVec 8) (qt : QTable) :
    (Instr.start idx w h v qt).idx = idx := rfl
@[simp] theorem Instr.idx_appendRow (idx : Index) (c : List Coef) : (Instr.appendRow idx c).idx = idx := rfl
@[simp] theorem Instr.idx_getResult (idx : Index) : (Instr.getResult idx).idx = idx := rfl

theorem length_encode (i : Instr) : (encode i).length = i.words := by
  cases i <;> simp [encode, Instr.words]
  omega

namespace Machine

/-! ### Response words -/

@[simp] theorem byteOfWord_packBytes_0 (b0 b1 b2 b3 : Byte) : byteOfWord (packBytes b0 b1 b2 b3) 0 = b0 :=
  (extract_append_low (b3 ++ b2 ++ b1) b0 (Nat.le_refl 8)).trans (extract_all b0)

@[simp] theorem byteOfWord_packBytes_1 (b0 b1 b2 b3 : Byte) : byteOfWord (packBytes b0 b1 b2 b3) 1 = b1 :=
  (extract_append_high (b3 ++ b2 ++ b1) b0 0 8).trans
    ((extract_append_low (b3 ++ b2) b1 (Nat.le_refl 8)).trans (extract_all b1))

@[simp] theorem byteOfWord_packBytes_2 (b0 b1 b2 b3 : Byte) : byteOfWord (packBytes b0 b1 b2 b3) 2 = b2 :=
  (extract_append_high (b3 ++ b2 ++ b1) b0 8 8).trans
    ((extract_append_high (b3 ++ b2) b1 0 8).trans
      ((extract_append_low b3 b2 (Nat.le_refl 8)).trans (extract_all b2)))

@[simp] theorem byteOfWord_packBytes_3 (b0 b1 b2 b3 : Byte) : byteOfWord (packBytes b0 b1 b2 b3) 3 = b3 :=
  (extract_append_high (b3 ++ b2 ++ b1) b0 16 8).trans
    ((extract_append_high (b3 ++ b2) b1 8 8).trans
      ((extract_append_high b3 b2 0 8).trans (extract_all b3)))

/-- A status word is four bytes: status, op, idx, 0 (rule R81). -/
theorem statusWord_eq_packBytes (e : Status) (op : BitVec 8) (idx : Index) :
    statusWord e op idx = packBytes e.code op idx 0#8 := rfl

theorem code_eq_zero_iff (e : Status) : e.code = 0#8 ↔ e = .ok := by cases e <;> decide

theorem code_inj {e e' : Status} (h : e.code = e'.code) : e = e' := by
  revert h; cases e <;> cases e' <;> decide

end Machine

end Sys2Proof
end

