-- ==== Sys2Proof/Laws/Plane.lean ====
section
/-!
SUPPORT. The laws of plane memory: a read after a write, the canonical form, and that planes in canonical form with
equal bytes are equal.
-/

namespace Sys2Proof.Machine

/-! ### Cells -/

theorem cellsWf_mono {len lo lo' : Nat} {cs : List Host.Cell} (h : cellsWf len lo cs = true) (hle : lo' ≤ lo) :
    cellsWf len lo' cs = true := by
  cases cs with
  | nil => rfl
  | cons c rest =>
    obtain ⟨a, v⟩ := c
    simp only [cellsWf, Bool.and_eq_true, decide_eq_true_eq] at h ⊢
    exact ⟨⟨⟨by omega, h.1.1.2⟩, h.1.2⟩, h.2⟩

theorem cellsWf_cons {len lo a : Nat} {v : Byte} {rest : List Host.Cell} :
    cellsWf len lo ((a, v) :: rest) = true ↔ lo ≤ a ∧ a < len ∧ v ≠ 0#8 ∧ cellsWf len (a + 1) rest = true := by
  simp [cellsWf, and_assoc]

/-- Below the first offset a canonical list may hold, every byte is 0. -/
theorem cellAt_of_lt {len lo o : Nat} {cs : List Host.Cell} (h : cellsWf len lo cs = true) (ho : o < lo) :
    cellAt cs o = 0#8 := by
  induction cs generalizing lo with
  | nil => rfl
  | cons c rest ih =>
    obtain ⟨a, v⟩ := c
    obtain ⟨h1, -, -, h4⟩ := cellsWf_cons.1 h
    rw [cellAt, if_neg (by omega)]
    exact ih h4 (by omega)

/-- At and past the plane's length, every byte of a canonical list is 0. -/
theorem cellAt_of_ge {len lo o : Nat} {cs : List Host.Cell} (h : cellsWf len lo cs = true) (ho : len ≤ o) :
    cellAt cs o = 0#8 := by
  induction cs generalizing lo with
  | nil => rfl
  | cons c rest ih =>
    obtain ⟨a, v⟩ := c
    obtain ⟨-, h2, -, h4⟩ := cellsWf_cons.1 h
    rw [cellAt, if_neg (by omega)]
    exact ih h4

/-- A write leaves every other offset alone. -/
theorem cellAt_setCell_of_ne {o o' : Nat} (v : Byte) (cs : List Host.Cell) (hne : o' ≠ o) :
    cellAt (setCell o v cs) o' = cellAt cs o' := by
  induction cs with
  | nil => by_cases hv : v = 0#8 <;> simp [setCell, hv, cellAt, hne.symm]
  | cons c rest ih =>
    obtain ⟨a, u⟩ := c
    rcases lt_trichotomy a o with h | h | h
    · simp [setCell, h, cellAt, ih]
    · subst h
      by_cases hv : v = 0#8 <;> simp [setCell, hv, cellAt, hne.symm]
    · by_cases hv : v = 0#8 <;>
        simp [setCell, show ¬ a < o by omega, show a ≠ o by omega, hv, cellAt, hne.symm]

/-- In a canonical list, a write puts its byte where it says. -/
theorem cellAt_setCell_self {len lo o : Nat} (v : Byte) {cs : List Host.Cell} (h : cellsWf len lo cs = true) :
    cellAt (setCell o v cs) o = v := by
  induction cs generalizing lo with
  | nil => by_cases hv : v = 0#8 <;> simp [setCell, hv, cellAt]
  | cons c rest ih =>
    obtain ⟨a, u⟩ := c
    obtain ⟨-, -, -, h4⟩ := cellsWf_cons.1 h
    rcases lt_trichotomy a o with hlt | heq | hgt
    · simp [setCell, hlt, cellAt, show a ≠ o by omega, ih h4]
    · subst heq
      by_cases hv : v = 0#8
      · simp [setCell, hv, cellAt_of_lt h4 (Nat.lt_succ_self a)]
      · simp [setCell, hv, cellAt]
    · by_cases hv : v = 0#8
      · have hz := cellAt_of_lt h4 (show o < a + 1 by omega)
        simp [setCell, show ¬ a < o by omega, show a ≠ o by omega, hv, cellAt, hz]
      · simp [setCell, show ¬ a < o by omega, show a ≠ o by omega, hv, cellAt]

/-- A write inside the plane keeps the canonical form. -/
theorem cellsWf_setCell {len lo o : Nat} (v : Byte) {cs : List Host.Cell} (h : cellsWf len lo cs = true)
    (hlo : lo ≤ o) (ho : o < len) : cellsWf len lo (setCell o v cs) = true := by
  induction cs generalizing lo with
  | nil => by_cases hv : v = 0#8 <;> simp [setCell, hv, cellsWf, hlo, ho]
  | cons c rest ih =>
    obtain ⟨a, u⟩ := c
    obtain ⟨h1, h2, h3, h4⟩ := cellsWf_cons.1 h
    rcases lt_trichotomy a o with hlt | heq | hgt
    · rw [setCell, if_pos hlt]
      exact cellsWf_cons.2 ⟨h1, h2, h3, ih h4 (by omega)⟩
    · subst heq
      by_cases hv : v = 0#8
      · simpa [setCell, hv] using cellsWf_mono h4 (show lo ≤ a + 1 by omega)
      · simpa [setCell, hv] using cellsWf_cons.2 ⟨h1, h2, hv, h4⟩
    · by_cases hv : v = 0#8
      · simpa [setCell, show ¬ a < o by omega, show a ≠ o by omega, hv] using h
      · simpa [setCell, show ¬ a < o by omega, show a ≠ o by omega, hv] using
          cellsWf_cons.2 ⟨hlo, ho, hv, cellsWf_cons.2 ⟨by omega, h2, h3, h4⟩⟩

/-- Canonical lists that give every offset the same byte are the same list. -/
theorem cells_ext {len lo : Nat} {cs ds : List Host.Cell} (hc : cellsWf len lo cs = true)
    (hd : cellsWf len lo ds = true) (h : ∀ o, cellAt cs o = cellAt ds o) : cs = ds := by
  induction cs generalizing lo ds with
  | nil =>
    cases ds with
    | nil => rfl
    | cons d rest =>
      obtain ⟨a, v⟩ := d
      obtain ⟨-, -, h3, -⟩ := cellsWf_cons.1 hd
      exact absurd (by simpa [cellAt] using (h a).symm) h3
  | cons c rest ih =>
    obtain ⟨a, v⟩ := c
    obtain ⟨c1, c2, c3, c4⟩ := cellsWf_cons.1 hc
    cases ds with
    | nil => exact absurd (by simpa [cellAt] using h a) c3
    | cons d rest' =>
      obtain ⟨b, u⟩ := d
      obtain ⟨d1, d2, d3, d4⟩ := cellsWf_cons.1 hd
      have hab : a = b := by
        rcases lt_trichotomy a b with hlt | heq | hgt
        · have := h a
          simp only [cellAt, if_true, if_neg (show b ≠ a by omega), cellAt_of_lt d4 (show a < b + 1 by omega)] at this
          exact absurd this c3
        · exact heq
        · have := h b
          simp only [cellAt, if_true, if_neg (show a ≠ b by omega), cellAt_of_lt c4 (show b < a + 1 by omega)] at this
          exact absurd this.symm d3
      subst hab
      have hvu : v = u := by simpa [cellAt] using h a
      subst hvu
      refine congrArg _ (ih c4 d4 fun o => ?_)
      by_cases ho : a = o
      · subst ho
        rw [cellAt_of_lt c4 (Nat.lt_succ_self _), cellAt_of_lt d4 (Nat.lt_succ_self _)]
      · simpa [cellAt, ho] using h o

/-! ### Planes -/

@[simp] theorem Plane.len_write (p : Plane) (o : Nat) (v : Byte) : (p.write o v).len = p.len := by
  unfold Plane.write; split <;> rfl

theorem Plane.read_write_of_ne (p : Plane) {o o' : Nat} (v : Byte) (hne : o' ≠ o) :
    (p.write o v).read o' = p.read o' := by
  unfold Plane.write
  split
  · exact cellAt_setCell_of_ne v p.cells hne
  · rfl

theorem Plane.read_write_self {p : Plane} {o : Nat} (v : Byte) (hwf : p.wf = true) (ho : o < p.len.toNat) :
    (p.write o v).read o = v := by
  rw [Plane.write, if_pos ho]
  exact cellAt_setCell_self v hwf

theorem Plane.wf_write {p : Plane} (o : Nat) (v : Byte) (hwf : p.wf = true) : (p.write o v).wf = true := by
  unfold Plane.write
  split
  · exact cellsWf_setCell v hwf (Nat.zero_le o) ‹_›
  · exact hwf

theorem Plane.ext_read {p q : Plane} (hp : p.wf = true) (hq : q.wf = true) (hlen : p.len = q.len)
    (h : ∀ o, p.read o = q.read o) : p = q := by
  obtain ⟨lp, cp⟩ := p
  obtain ⟨lq, cq⟩ := q
  obtain rfl : lp = lq := hlen
  obtain rfl : cp = cq := cells_ext hp hq h
  rfl

@[simp] theorem Plane.wf_empty : Plane.empty.wf = true := rfl

@[simp] theorem Plane.wf_zeros (n : Nat) : (Plane.zeros n).wf = true := rfl

@[simp] theorem Plane.read_empty (o : Nat) : Plane.empty.read o = 0#8 := rfl

@[simp] theorem Plane.read_zeros (n o : Nat) : (Plane.zeros n).read o = 0#8 := rfl

@[simp] theorem Plane.len_empty : Plane.empty.len = 0#40 := rfl

theorem Plane.read_of_ge {p : Plane} {o : Nat} (hwf : p.wf = true) (ho : p.len.toNat ≤ o) : p.read o = 0#8 :=
  cellAt_of_ge hwf ho

/-- A plane of length 0 in canonical form is the empty plane. -/
theorem Plane.eq_empty_of_len {p : Plane} (hwf : p.wf = true) (h : p.len = 0#40) : p = Plane.empty :=
  Plane.ext_read hwf Plane.wf_empty h fun o => by simp [Plane.read_of_ge hwf (show p.len.toNat ≤ o by simp [h])]

theorem planeBytes_lt (w h : Half) : planeBytes w h < 2 ^ 38 := by
  have hw := w.isLt
  have hh := h.isLt
  have : w.toNat * h.toNat ≤ 65535 * 65535 := Nat.mul_le_mul (by omega) (by omega)
  unfold planeBytes
  omega

/-- A plane's length is exact: `w * h * 64` needs fewer than 40 bits (rules R104, R127). -/
@[simp] theorem Plane.toNat_len_zeros (w h : Half) : (Plane.zeros (planeBytes w h)).len.toNat = planeBytes w h := by
  have := planeBytes_lt w h
  simp only [Plane.zeros, BitVec.toNat_ofNat]
  omega

/-- A list of writes that misses an offset leaves it alone. -/
theorem Plane.read_foldl_write_of_ne {ι : Type} (l : List ι) (off : ι → Nat) (val : ι → Byte) (p : Plane) {o : Nat}
    (h : ∀ k ∈ l, off k ≠ o) : (l.foldl (fun q k => q.write (off k) (val k)) p).read o = p.read o := by
  induction l generalizing p with
  | nil => rfl
  | cons k rest ih =>
    rw [List.foldl_cons, ih _ fun j hj => h j (List.mem_cons_of_mem _ hj)]
    exact Plane.read_write_of_ne _ _ (h k List.mem_cons_self).symm

@[simp] theorem Plane.len_foldl_write {ι : Type} (l : List ι) (off : ι → Nat) (val : ι → Byte) (p : Plane) :
    (l.foldl (fun q k => q.write (off k) (val k)) p).len = p.len := by
  induction l generalizing p with
  | nil => rfl
  | cons k rest ih => rw [List.foldl_cons, ih, Plane.len_write]

theorem Plane.wf_foldl_write {ι : Type} (l : List ι) (off : ι → Nat) (val : ι → Byte) {p : Plane} (h : p.wf = true) :
    (l.foldl (fun q k => q.write (off k) (val k)) p).wf = true := by
  induction l generalizing p with
  | nil => exact h
  | cons k rest ih => exact ih (Plane.wf_write _ _ h)

/-- A list of writes to distinct offsets puts each byte where it says. -/
theorem Plane.read_foldl_write {ι : Type} {l : List ι} {off : ι → Nat} (val : ι → Byte) {p : Plane} {k : ι}
    (hwf : p.wf = true) (hk : k ∈ l) (hlt : off k < p.len.toNat)
    (hinj : ∀ j ∈ l, off j = off k → j = k) :
    (l.foldl (fun q j => q.write (off j) (val j)) p).read (off k) = val k := by
  induction l generalizing p with
  | nil => simp at hk
  | cons a rest ih =>
    rw [List.foldl_cons]
    by_cases hr : k ∈ rest
    · exact ih (Plane.wf_write _ _ hwf) hr (by simpa using hlt) fun j hj => hinj j (List.mem_cons_of_mem _ hj)
    · obtain rfl : k = a := by simpa [hr] using hk
      rw [Plane.read_foldl_write_of_ne rest off val _ fun j hj e =>
        hr (hinj j (List.mem_cons_of_mem _ hj) e ▸ hj)]
      exact Plane.read_write_self _ hwf hlt

end Sys2Proof.Machine
end

