-- ==== Sys2Proof/Laws/Placement.lean ====
section
/-!
SUPPORT. Where the blocks of a row land (`41_row_append.md` rules R124 to R131): the offsets lie in the row's range, no
two samples share one, every offset of the range is some sample's, and so what every byte of the plane reads after a
row is placed.
-/

namespace Sys2Proof.Machine

/-! ### Offsets -/

/-- A sample's offset by plane line and column. -/
theorem sampleOffset_eq (w cur b k : Nat) :
    sampleOffset w cur b k = cur + ((b / w * 8 + k / 8) * (w * 8) + (b % w * 8 + k % 8)) := by
  simp only [sampleOffset, blockBase, blockX, blockY]
  ring

theorem sampleOffset_eq_add (w cur b k : Nat) : sampleOffset w cur b k = cur + sampleOffset w 0 b k := by
  simp only [sampleOffset_eq, Nat.zero_add]

theorem column_lt {w : Nat} (hw : 0 < w) (b k : Nat) : b % w * 8 + k % 8 < w * 8 := by
  have := Nat.mod_lt b hw
  omega

theorem line_of_sampleOffset {w : Nat} (hw : 0 < w) (b k : Nat) :
    sampleOffset w 0 b k / (w * 8) = b / w * 8 + k / 8 := by
  rw [sampleOffset_eq, Nat.zero_add, Nat.mul_comm, Nat.mul_add_div (by omega), Nat.div_eq_of_lt (column_lt hw b k),
    Nat.add_zero]

theorem column_of_sampleOffset {w : Nat} (hw : 0 < w) (b k : Nat) :
    sampleOffset w 0 b k % (w * 8) = b % w * 8 + k % 8 := by
  rw [sampleOffset_eq, Nat.zero_add, Nat.mul_comm, Nat.mul_add_mod, Nat.mod_eq_of_lt (column_lt hw b k)]

/-- The block of a sample is read back from its offset. -/
theorem blockAt_sampleOffset {w k : Nat} (hw : 0 < w) (b : Nat) (hk : k < 64) :
    blockAt w (sampleOffset w 0 b k) = b := by
  rw [blockAt, line_of_sampleOffset hw, column_of_sampleOffset hw,
    show (b / w * 8 + k / 8) / 8 = b / w by omega, show (b % w * 8 + k % 8) / 8 = b % w by omega]
  exact Nat.div_add_mod' b w

/-- The position of a sample in its block is read back from its offset. -/
theorem positionAt_sampleOffset {w : Nat} (hw : 0 < w) (b : Nat) (k : Fin 64) :
    positionAt w (sampleOffset w 0 b k) = k := by
  apply Fin.ext
  simp only [positionAt, line_of_sampleOffset hw, column_of_sampleOffset hw]
  omega

/-- Every offset of a row is the offset of the sample read back from it. -/
theorem sampleOffset_blockAt {w : Nat} (hw : 0 < w) (cur rel : Nat) :
    sampleOffset w cur (blockAt w rel) (positionAt w rel) = cur + rel := by
  have hc : rel % (w * 8) < w * 8 := Nat.mod_lt _ (by omega)
  have hx : rel % (w * 8) / 8 < w := by omega
  have hd : blockAt w rel / w = rel / (w * 8) / 8 := by
    rw [blockAt, Nat.mul_comm, Nat.mul_add_div hw, Nat.div_eq_of_lt hx, Nat.add_zero]
  have hm : blockAt w rel % w = rel % (w * 8) / 8 := by
    rw [blockAt, Nat.mul_comm, Nat.mul_add_mod, Nat.mod_eq_of_lt hx]
  rw [sampleOffset_eq, hd, hm]
  simp only [positionAt]
  rw [show rel / (w * 8) / 8 * 8 + (rel / (w * 8) % 8 * 8 + rel % (w * 8) % 8) / 8 = rel / (w * 8) by omega,
    show rel % (w * 8) / 8 * 8 + (rel / (w * 8) % 8 * 8 + rel % (w * 8) % 8) % 8 = rel % (w * 8) by omega,
    Nat.div_add_mod']

theorem blockAt_lt {w v rel : Nat} (hw : 0 < w) (h : rel < w * v * 64) : blockAt w rel < w * v := by
  have hx : rel % (w * 8) / 8 < w := by
    have := Nat.mod_lt rel (show 0 < w * 8 by omega)
    omega
  have hy : rel / (w * 8) / 8 < v := by
    rw [Nat.div_div_eq_div_mul]
    exact Nat.div_lt_of_lt_mul (by rw [show w * 8 * 8 * v = w * v * 64 by ring]; exact h)
  calc blockAt w rel < rel / (w * 8) / 8 * w + w := by unfold blockAt; omega
    _ = (rel / (w * 8) / 8 + 1) * w := by ring
    _ ≤ v * w := Nat.mul_le_mul_right _ hy
    _ = w * v := Nat.mul_comm _ _

/-- Rule R60: a sample of a block of the row lies in the row's range. -/
theorem sampleOffset_lt {w v b k : Nat} (cur : Nat) (hb : b < w * v) (hk : k < 64) :
    cur ≤ sampleOffset w cur b k ∧ sampleOffset w cur b k < cur + w * v * 64 := by
  have hw : 0 < w := Nat.pos_of_ne_zero fun h => by simp [h] at hb
  have hy : b / w < v := Nat.div_lt_of_lt_mul hb
  have hc := column_lt hw b k
  rw [sampleOffset_eq]
  refine ⟨Nat.le_add_right _ _, Nat.add_lt_add_left ?_ cur⟩
  calc (b / w * 8 + k / 8) * (w * 8) + (b % w * 8 + k % 8)
      < (b / w * 8 + k / 8) * (w * 8) + w * 8 := by omega
    _ = (b / w * 8 + k / 8 + 1) * (w * 8) := by ring
    _ ≤ (v * 8) * (w * 8) := Nat.mul_le_mul_right _ (by omega)
    _ = w * v * 64 := by ring

/-- Rule R130: two samples of one row at the same offset are the same sample. -/
theorem sampleOffset_inj {w cur b b' : Nat} {k k' : Fin 64} (hw : 0 < w)
    (h : sampleOffset w cur b k = sampleOffset w cur b' k') : b = b' ∧ k = k' := by
  rw [sampleOffset_eq_add w cur b, sampleOffset_eq_add w cur b'] at h
  have h0 : sampleOffset w 0 b k = sampleOffset w 0 b' k' := by omega
  constructor
  · rw [← blockAt_sampleOffset hw b k.isLt, h0, blockAt_sampleOffset hw b' k'.isLt]
  · rw [← positionAt_sampleOffset hw b k, h0, positionAt_sampleOffset hw b' k']

/-! ### One block -/

@[simp] theorem len_writeBlock (w cur b : Nat) (out : SampleBlock) (p : Plane) :
    (writeBlock w cur b out p).len = p.len :=
  Plane.len_foldl_write ..

theorem wf_writeBlock (w cur b : Nat) (out : SampleBlock) {p : Plane} (h : p.wf = true) :
    (writeBlock w cur b out p).wf = true :=
  Plane.wf_foldl_write _ _ _ h

theorem read_writeBlock_of_ne (w cur b : Nat) (out : SampleBlock) (p : Plane) {o : Nat}
    (h : ∀ k : Fin 64, sampleOffset w cur b k ≠ o) : (writeBlock w cur b out p).read o = p.read o :=
  Plane.read_foldl_write_of_ne _ _ _ _ fun k _ => h k

theorem read_writeBlock {w cur b : Nat} (out : SampleBlock) {p : Plane} (k : Fin 64) (hw : 0 < w) (hwf : p.wf = true)
    (hlt : sampleOffset w cur b k < p.len.toNat) :
    (writeBlock w cur b out p).read (sampleOffset w cur b k) = out[k] :=
  Plane.read_foldl_write (off := fun k : Fin 64 => sampleOffset w cur b k) (fun k => out[k]) hwf
    (List.mem_finRange k) hlt fun _ _ e => (sampleOffset_inj hw e).2

/-! ### The blocks of a row -/

theorem placeBlocks_cons (w cur : Nat) (f : Nat → SampleBlock) (b : Nat) (rest : List Nat) (p : Plane) :
    placeBlocks w cur f (b :: rest) p = placeBlocks w cur f rest (writeBlock w cur b (f b) p) :=
  List.foldl_cons ..

@[simp] theorem len_placeBlocks (w cur : Nat) (f : Nat → SampleBlock) (order : List Nat) (p : Plane) :
    (placeBlocks w cur f order p).len = p.len := by
  induction order generalizing p with
  | nil => rfl
  | cons b rest ih =>
    rw [placeBlocks_cons, ih, len_writeBlock]

theorem wf_placeBlocks (w cur : Nat) (f : Nat → SampleBlock) (order : List Nat) {p : Plane} (h : p.wf = true) :
    (placeBlocks w cur f order p).wf = true := by
  induction order generalizing p with
  | nil => exact h
  | cons b rest ih => rw [placeBlocks_cons]; exact ih (wf_writeBlock _ _ _ _ h)

theorem read_placeBlocks_of_ne (w cur : Nat) (f : Nat → SampleBlock) (order : List Nat) (p : Plane) {o : Nat}
    (h : ∀ b ∈ order, ∀ k : Fin 64, sampleOffset w cur b k ≠ o) :
    (placeBlocks w cur f order p).read o = p.read o := by
  induction order generalizing p with
  | nil => rfl
  | cons b rest ih =>
    rw [placeBlocks_cons, ih _ fun b' hb' => h b' (List.mem_cons_of_mem _ hb'),
      read_writeBlock_of_ne _ _ _ _ _ (h b List.mem_cons_self)]

theorem read_placeBlocks {w cur b : Nat} (f : Nat → SampleBlock) {order : List Nat} {p : Plane} (k : Fin 64)
    (hw : 0 < w) (hwf : p.wf = true) (hb : b ∈ order) (hlt : sampleOffset w cur b k < p.len.toNat) :
    (placeBlocks w cur f order p).read (sampleOffset w cur b k) = (f b)[k] := by
  induction order generalizing p with
  | nil => simp at hb
  | cons a rest ih =>
    rw [placeBlocks_cons]
    by_cases hr : b ∈ rest
    · exact ih (wf_writeBlock _ _ _ _ hwf) hr (by simpa using hlt)
    · obtain rfl : b = a := by simpa [hr] using hb
      have hmiss : ∀ b' ∈ rest, ∀ k' : Fin 64, sampleOffset w cur b' k' ≠ sampleOffset w cur b k :=
        fun b' hb' k' e => hr ((sampleOffset_inj hw e).1 ▸ hb')
      rw [read_placeBlocks_of_ne _ _ _ _ _ hmiss]
      exact read_writeBlock _ _ hw hwf hlt

/-! ### The whole row -/

@[simp] theorem len_placeRow (t : CoefBlock → QTable → SampleBlock) (d : Desc) (qt : QTable) (cur : Nat) (c : List Coef)
    (p : Plane) : (placeRow t d qt cur c p).len = p.len :=
  len_placeBlocks ..

theorem wf_placeRow (t : CoefBlock → QTable → SampleBlock) (d : Desc) (qt : QTable) (cur : Nat) (c : List Coef)
    {p : Plane} (h : p.wf = true) : (placeRow t d qt cur c p).wf = true :=
  wf_placeBlocks _ _ _ _ h

/-- Outside the row's range the plane reads as before, whatever the plane. -/
theorem read_placeRow_outside (t : CoefBlock → QTable → SampleBlock) (d : Desc) (qt : QTable) (cur : Nat)
    (c : List Coef) (p : Plane) {o : Nat} (h : o < cur ∨ cur + d.rowBytes ≤ o) :
    (placeRow t d qt cur c p).read o = p.read o := by
  refine read_placeBlocks_of_ne _ _ _ _ _ fun b hb k e => ?_
  have := sampleOffset_lt (v := d.verticalSamplingFactor.toNat) cur (List.mem_range.1 hb) k.isLt
  simp only [Desc.rowBytes, Desc.blockCount] at h
  omega

/-- Inside the row's range the plane reads the sample whose offset it is. -/
theorem read_placeRow_inside (t : CoefBlock → QTable → SampleBlock) {d : Desc} (qt : QTable) {cur : Nat}
    (c : List Coef) {p : Plane} (hwf : p.wf = true) (hfit : cur + d.rowBytes ≤ p.len.toNat) {rel : Nat}
    (hrel : rel < d.rowBytes) :
    (placeRow t d qt cur c p).read (cur + rel) =
      (rowBlock t c qt (blockAt d.gridWidth.toNat rel))[positionAt d.gridWidth.toNat rel] := by
  have hw : 0 < d.gridWidth.toNat := Nat.pos_of_ne_zero fun h => by
    simp [Desc.rowBytes, Desc.blockCount, h] at hrel
  have hb := blockAt_lt hw (v := d.verticalSamplingFactor.toNat) hrel
  have ho := sampleOffset_blockAt hw cur rel
  rw [← ho]
  exact read_placeBlocks _ _ hw hwf (List.mem_range.2 hb) (by omega)

end Sys2Proof.Machine
end

