-- ==== Sys2Proof/Laws/State.lean ====
section
/-!
SUPPORT. What each update of the state does to each field, one lemma a field, and what slot access sees of an update.
-/

namespace Sys2Proof.Machine

/-! ### Fields after each update -/

@[simp] theorem State.respond_slots (s : State) (ws : List Word) :
    (s.respond ws).slots = s.slots := rfl

@[simp] theorem State.respond_fault (s : State) (ws : List Word) :
    (s.respond ws).fault = s.fault := rfl

@[simp] theorem State.respond_halted (s : State) (ws : List Word) :
    (s.respond ws).halted = s.halted := rfl

@[simp] theorem State.respond_cmdPort (s : State) (ws : List Word) :
    (s.respond ws).cmdPort = s.cmdPort := rfl

@[simp] theorem State.respond_respPort (s : State) (ws : List Word) :
    (s.respond ws).respPort = s.respPort ++ ws := rfl

@[simp] theorem State.respond_resetIn (s : State) (ws : List Word) :
    (s.respond ws).resetIn = s.resetIn := rfl

@[simp] theorem State.respond_planeBytesMax (s : State) (ws : List Word) :
    (s.respond ws).planeBytesMax = s.planeBytesMax := rfl


@[simp] theorem State.consume_slots (s : State) (n : Nat) :
    (s.consume n).slots = s.slots := rfl

@[simp] theorem State.consume_fault (s : State) (n : Nat) :
    (s.consume n).fault = s.fault := rfl

@[simp] theorem State.consume_halted (s : State) (n : Nat) :
    (s.consume n).halted = s.halted := rfl

@[simp] theorem State.consume_cmdPort (s : State) (n : Nat) :
    (s.consume n).cmdPort = s.cmdPort.drop n := rfl

@[simp] theorem State.consume_respPort (s : State) (n : Nat) :
    (s.consume n).respPort = s.respPort := rfl

@[simp] theorem State.consume_resetIn (s : State) (n : Nat) :
    (s.consume n).resetIn = s.resetIn := rfl

@[simp] theorem State.consume_planeBytesMax (s : State) (n : Nat) :
    (s.consume n).planeBytesMax = s.planeBytesMax := rfl


@[simp] theorem State.setSlot_slots (s : State) (idx : Index) (sl : Slot) :
    (s.setSlot idx sl).slots = s.slots.set idx.toNat sl := rfl

@[simp] theorem State.setSlot_fault (s : State) (idx : Index) (sl : Slot) :
    (s.setSlot idx sl).fault = s.fault := rfl

@[simp] theorem State.setSlot_halted (s : State) (idx : Index) (sl : Slot) :
    (s.setSlot idx sl).halted = s.halted := rfl

@[simp] theorem State.setSlot_cmdPort (s : State) (idx : Index) (sl : Slot) :
    (s.setSlot idx sl).cmdPort = s.cmdPort := rfl

@[simp] theorem State.setSlot_respPort (s : State) (idx : Index) (sl : Slot) :
    (s.setSlot idx sl).respPort = s.respPort := rfl

@[simp] theorem State.setSlot_resetIn (s : State) (idx : Index) (sl : Slot) :
    (s.setSlot idx sl).resetIn = s.resetIn := rfl

@[simp] theorem State.setSlot_planeBytesMax (s : State) (idx : Index) (sl : Slot) :
    (s.setSlot idx sl).planeBytesMax = s.planeBytesMax := rfl


@[simp] theorem State.raise_slots (s : State) (e : Status) (op : BitVec 8) (idx : Index) :
    (s.raise e op idx).slots = s.slots := rfl

@[simp] theorem State.raise_fault (s : State) (e : Status) (op : BitVec 8) (idx : Index) :
    (s.raise e op idx).fault = e.code := rfl

@[simp] theorem State.raise_halted (s : State) (e : Status) (op : BitVec 8) (idx : Index) :
    (s.raise e op idx).halted = true := rfl

@[simp] theorem State.raise_cmdPort (s : State) (e : Status) (op : BitVec 8) (idx : Index) :
    (s.raise e op idx).cmdPort = s.cmdPort := rfl

@[simp] theorem State.raise_respPort (s : State) (e : Status) (op : BitVec 8) (idx : Index) :
    (s.raise e op idx).respPort = s.respPort ++ [statusWord e op idx] := rfl

@[simp] theorem State.raise_resetIn (s : State) (e : Status) (op : BitVec 8) (idx : Index) :
    (s.raise e op idx).resetIn = s.resetIn := rfl

@[simp] theorem State.raise_planeBytesMax (s : State) (e : Status) (op : BitVec 8) (idx : Index) :
    (s.raise e op idx).planeBytesMax = s.planeBytesMax := rfl


@[simp] theorem State.takeIllegal_slots (s : State) (op : BitVec 8) (idx : Index) (n : Nat) :
    (s.takeIllegal op idx n).slots = s.slots := rfl

@[simp] theorem State.takeIllegal_fault (s : State) (op : BitVec 8) (idx : Index) (n : Nat) :
    (s.takeIllegal op idx n).fault = 7#8 := rfl

@[simp] theorem State.takeIllegal_halted (s : State) (op : BitVec 8) (idx : Index) (n : Nat) :
    (s.takeIllegal op idx n).halted = true := rfl

@[simp] theorem State.takeIllegal_cmdPort (s : State) (op : BitVec 8) (idx : Index) (n : Nat) :
    (s.takeIllegal op idx n).cmdPort = s.cmdPort.drop n := rfl

@[simp] theorem State.takeIllegal_respPort (s : State) (op : BitVec 8) (idx : Index) (n : Nat) :
    (s.takeIllegal op idx n).respPort = s.respPort ++ [statusWord .illegalCommand op idx] := rfl

@[simp] theorem State.takeIllegal_resetIn (s : State) (op : BitVec 8) (idx : Index) (n : Nat) :
    (s.takeIllegal op idx n).resetIn = s.resetIn := rfl

@[simp] theorem State.takeIllegal_planeBytesMax (s : State) (op : BitVec 8) (idx : Index) (n : Nat) :
    (s.takeIllegal op idx n).planeBytesMax = s.planeBytesMax := rfl


@[simp] theorem State.resetOf_slots (n : Nat) (cap : Option Nat) :
    (State.resetOf n cap).slots = List.replicate n Slot.atReset := rfl

@[simp] theorem State.resetOf_fault (n : Nat) (cap : Option Nat) :
    (State.resetOf n cap).fault = 0#8 := rfl

@[simp] theorem State.resetOf_halted (n : Nat) (cap : Option Nat) :
    (State.resetOf n cap).halted = false := rfl

@[simp] theorem State.resetOf_cmdPort (n : Nat) (cap : Option Nat) :
    (State.resetOf n cap).cmdPort = [] := rfl

@[simp] theorem State.resetOf_respPort (n : Nat) (cap : Option Nat) :
    (State.resetOf n cap).respPort = [] := rfl

@[simp] theorem State.resetOf_resetIn (n : Nat) (cap : Option Nat) :
    (State.resetOf n cap).resetIn = false := rfl

@[simp] theorem State.resetOf_planeBytesMax (n : Nat) (cap : Option Nat) :
    (State.resetOf n cap).planeBytesMax = cap := rfl


@[simp] theorem State.takeReset_slots (s : State) :
    (s.takeReset).slots = List.replicate s.slots.length Slot.atReset := rfl

@[simp] theorem State.takeReset_fault (s : State) :
    (s.takeReset).fault = 0#8 := rfl

@[simp] theorem State.takeReset_halted (s : State) :
    (s.takeReset).halted = false := rfl

@[simp] theorem State.takeReset_cmdPort (s : State) :
    (s.takeReset).cmdPort = [] := rfl

@[simp] theorem State.takeReset_respPort (s : State) :
    (s.takeReset).respPort = [] := rfl

@[simp] theorem State.takeReset_resetIn (s : State) :
    (s.takeReset).resetIn = false := rfl

@[simp] theorem State.takeReset_planeBytesMax (s : State) :
    (s.takeReset).planeBytesMax = s.planeBytesMax := rfl


@[simp] theorem State.hostWrite_slots (s : State) (ws : List Word) :
    (s.hostWrite ws).slots = s.slots := rfl

@[simp] theorem State.hostWrite_fault (s : State) (ws : List Word) :
    (s.hostWrite ws).fault = s.fault := rfl

@[simp] theorem State.hostWrite_halted (s : State) (ws : List Word) :
    (s.hostWrite ws).halted = s.halted := rfl

@[simp] theorem State.hostWrite_cmdPort (s : State) (ws : List Word) :
    (s.hostWrite ws).cmdPort = s.cmdPort ++ ws := rfl

@[simp] theorem State.hostWrite_respPort (s : State) (ws : List Word) :
    (s.hostWrite ws).respPort = s.respPort := rfl

@[simp] theorem State.hostWrite_resetIn (s : State) (ws : List Word) :
    (s.hostWrite ws).resetIn = s.resetIn := rfl

@[simp] theorem State.hostWrite_planeBytesMax (s : State) (ws : List Word) :
    (s.hostWrite ws).planeBytesMax = s.planeBytesMax := rfl


@[simp] theorem State.hostReset_slots (s : State) :
    (s.hostReset).slots = s.slots := rfl

@[simp] theorem State.hostReset_fault (s : State) :
    (s.hostReset).fault = s.fault := rfl

@[simp] theorem State.hostReset_halted (s : State) :
    (s.hostReset).halted = s.halted := rfl

@[simp] theorem State.hostReset_cmdPort (s : State) :
    (s.hostReset).cmdPort = s.cmdPort := rfl

@[simp] theorem State.hostReset_respPort (s : State) :
    (s.hostReset).respPort = s.respPort := rfl

@[simp] theorem State.hostReset_resetIn (s : State) :
    (s.hostReset).resetIn = true := rfl

@[simp] theorem State.hostReset_planeBytesMax (s : State) :
    (s.hostReset).planeBytesMax = s.planeBytesMax := rfl


/-! ### Slots after each update -/

@[simp] theorem State.slot?_respond (s : State) (ws : List Word) (j : Index) : (s.respond ws).slot? j = s.slot? j := rfl

@[simp] theorem State.slot?_consume (s : State) (n : Nat) (j : Index) : (s.consume n).slot? j = s.slot? j := rfl

@[simp] theorem State.slot?_raise (s : State) (e : Status) (op : BitVec 8) (idx j : Index) :
    (s.raise e op idx).slot? j = s.slot? j := rfl

@[simp] theorem State.slot?_hostWrite (s : State) (ws : List Word) (j : Index) :
    (s.hostWrite ws).slot? j = s.slot? j := rfl

@[simp] theorem State.length_setSlot (s : State) (idx : Index) (sl : Slot) :
    (s.setSlot idx sl).slots.length = s.slots.length := by
  simp

/-- An index names a slot exactly when it is below `MAX_COMPONENTS` (rule R21). -/
theorem State.slot?_eq_none_iff (s : State) (idx : Index) : s.slot? idx = none ↔ s.slots.length ≤ idx.toNat := by
  simp [State.slot?]

theorem State.slot?_isSome_iff (s : State) (idx : Index) : (s.slot? idx).isSome ↔ idx.toNat < s.slots.length := by
  simp [State.slot?]

theorem State.lt_of_slot?_eq_some {s : State} {idx : Index} {sl : Slot} (h : s.slot? idx = some sl) :
    idx.toNat < s.slots.length := by
  simpa [h] using s.slot?_isSome_iff idx

theorem State.mem_of_slot?_eq_some {s : State} {idx : Index} {sl : Slot} (h : s.slot? idx = some sl) :
    sl ∈ s.slots :=
  List.mem_of_getElem? h

/-- The written slot holds what was written. -/
theorem State.slot?_setSlot_self {s : State} {idx : Index} {sl : Slot} (h : s.slot? idx = some sl) (sl' : Slot) :
    (s.setSlot idx sl').slot? idx = some sl' := by
  simp [State.slot?, State.lt_of_slot?_eq_some h]

/-- Every other slot is as before (rule R28). -/
theorem State.slot?_setSlot_of_ne (s : State) {idx j : Index} (h : j ≠ idx) (sl' : Slot) :
    (s.setSlot idx sl').slot? j = s.slot? j := by
  have hne : idx.toNat ≠ j.toNat := fun e => h (BitVec.eq_of_toNat_eq e.symm)
  simp [State.slot?, hne]

/-- Every slot of the updated registry is the written one or an old one. -/
theorem State.mem_slots_setSlot {s : State} {idx : Index} {sl' x : Slot} (h : x ∈ (s.setSlot idx sl').slots) :
    x = sl' ∨ x ∈ s.slots := by
  rcases List.mem_or_eq_of_mem_set h with h | h
  · exact .inr h
  · exact .inl h

theorem State.slot?_resetOf (n : Nat) (cap : Option Nat) (idx : Index) :
    (State.resetOf n cap).slot? idx = if idx.toNat < n then some Slot.atReset else none := by
  simp [State.slot?, List.getElem?_replicate]

theorem exceedsCapacity_eq_false_iff (cap : Option Nat) (n : Nat) :
    exceedsCapacity cap n = false ↔ ∀ most, cap = some most → n ≤ most := by
  cases cap <;> simp [exceedsCapacity]

end Sys2Proof.Machine
end

