-- ==== Sys2Proof/Laws/Exec.lean ====
section
/-!
SUPPORT. What a command can do, said once: if `exec` answers a next state, the command failed a check and only raised
that error, or it was accepted and the next state is the one its rule gives. Every law about commands goes through
`exec_cases`.
-/

namespace Sys2Proof.Machine

/-- The command passes its checks on slot `sl`, and `t` is the state it leaves (rules R104, R132, R150). -/
def Accepted (i : Instr) (s : State) (sl : Slot) (t : State) : Prop :=
  match i with
  | .start idx w h v qt =>
    sl.buffer.len = 0#40 ∧ exceedsCapacity s.planeBytesMax (planeBytes w h) = false ∧
      t = (s.setSlot idx (startedSlot w h v qt)).respond [statusWord .ok opStart idx]
  | .appendRow idx c =>
    ∃ d qt, sl.active = true ∧ sl.desc = some d ∧ sl.qt = some qt ∧ c.length = d.rowBytes ∧
      sl.cursor.toNat + d.rowBytes ≤ sl.buffer.len.toNat ∧
      t = (s.setSlot idx (appendedSlot idct d qt c sl)).respond [statusWord .ok opAppendRow idx]
  | .getResult idx =>
    t = (s.setSlot idx (drainedSlot sl)).respond (dataResponse opGetResult idx sl.buffer)

/-- Everything a command that answers a next state can have done (rules R104, R132, R150, R165). -/
theorem exec_cases {i : Instr} {s t : State} (h : exec i s = .next t) :
    (∃ e, e ≠ Status.ok ∧ t = s.raise e i.op i.idx) ∨ ∃ sl, s.slot? i.idx = some sl ∧ Accepted i s sl t := by
  cases i with
  | start idx w hh v qt =>
    simp only [exec, execStart, startNext, Host.Outcome.next.injEq] at h
    cases hs : s.slot? idx with
    | none => exact .inl ⟨.invalidIndex, by decide, by simpa [hs] using h.symm⟩
    | some sl =>
      rw [hs] at h
      by_cases hb : sl.buffer.len = 0#40
      · by_cases hc : exceedsCapacity s.planeBytesMax (planeBytes w hh) = true
        · exact .inl ⟨.capacityExceeded, by decide, by simpa [hb, hc] using h.symm⟩
        · simp only [Bool.not_eq_true] at hc
          refine .inr ⟨sl, hs, hb, hc, ?_⟩
          simpa [hb, hc] using h.symm
      · exact .inl ⟨.slotBusy, by decide, by simpa [hb] using h.symm⟩
  | appendRow idx c =>
    simp only [exec, execAppendRow, appendRowWith] at h
    cases hs : s.slot? idx with
    | none => exact .inl ⟨.invalidIndex, by decide, by simpa [hs] using h.symm⟩
    | some sl =>
      simp only [hs] at h
      cases ha : sl.active with
      | false => exact .inl ⟨.notStarted, by decide, by simpa [ha] using h.symm⟩
      | true =>
        simp only [ha, Bool.true_eq_false, if_false] at h
        cases hd : sl.desc with
        | none => simp [hd] at h
        | some d =>
          cases hq : sl.qt with
          | none => simp [hd, hq] at h
          | some qt =>
            simp only [hd, hq, appendToSession, Host.Outcome.next.injEq] at h
            by_cases hl : c.length = d.rowBytes
            · by_cases hb : sl.buffer.len.toNat < sl.cursor.toNat + d.rowBytes
              · exact .inl ⟨.outOfBounds, by decide, by simpa [hl, hb] using h.symm⟩
              · refine .inr ⟨sl, hs, d, qt, ha, hd, hq, hl, by omega, ?_⟩
                simpa [hl, hb] using h.symm
            · exact .inl ⟨.rowLengthMismatch, by decide, by simpa [hl] using h.symm⟩
  | getResult idx =>
    simp only [exec, execGetResult, getResultNext, Host.Outcome.next.injEq] at h
    cases hs : s.slot? idx with
    | none => exact .inl ⟨.invalidIndex, by decide, by simpa [hs] using h.symm⟩
    | some sl =>
      rw [hs] at h
      exact .inr ⟨sl, hs, h.symm⟩

/-- An accepted command writes one slot, its own, and sends a response that begins with its OK status word; nothing
else changes (rules R28, R29, R41). -/
theorem Accepted.next_eq {i : Instr} {s t : State} {sl : Slot} (h : Accepted i s sl t) :
    ∃ sl' ws, t = (s.setSlot i.idx sl').respond (statusWord .ok i.op i.idx :: ws) := by
  cases i with
  | start idx w hh v qt => exact ⟨_, [], h.2.2⟩
  | appendRow idx c =>
    obtain ⟨d, qt, -, -, -, -, -, ht⟩ := h
    exact ⟨_, [], ht⟩
  | getResult idx => exact ⟨_, _, h⟩

/-- What no command touches, and what only an error does. -/
theorem exec_frame {i : Instr} {s t : State} (h : exec i s = .next t) :
    t.cmdPort = s.cmdPort ∧ t.resetIn = s.resetIn ∧ t.planeBytesMax = s.planeBytesMax ∧
      t.slots.length = s.slots.length ∧ ∀ j, j ≠ i.idx → t.slot? j = s.slot? j := by
  rcases exec_cases h with ⟨e, -, rfl⟩ | ⟨sl, -, ha⟩
  · simp
  · obtain ⟨sl', ws, rfl⟩ := ha.next_eq
    exact ⟨rfl, rfl, rfl, by simp, fun j hj => by simpa using State.slot?_setSlot_of_ne s hj sl'⟩

/-- The only stop of a command: an APPEND_ROW on an active slot without a descriptor or a table. -/
theorem exec_not_next {i : Instr} {s : State} (h : ∀ t, exec i s ≠ .next t) :
    ∃ idx c sl, i = .appendRow idx c ∧ s.slot? idx = some sl ∧ sl.active = true ∧ (sl.desc = none ∨ sl.qt = none) ∧
      exec i s = .fault .activeWithoutSession := by
  cases i with
  | start idx w hh v qt => exact absurd rfl (h _)
  | getResult idx => exact absurd rfl (h _)
  | appendRow idx c =>
    simp only [exec, execAppendRow, appendRowWith] at h ⊢
    cases hs : s.slot? idx with
    | none => exact absurd (by simp [hs]; rfl) (h _)
    | some sl =>
      simp only [hs] at h ⊢
      cases ha : sl.active with
      | false => exact absurd (by simp [ha]; rfl) (h _)
      | true =>
        refine ⟨idx, c, sl, rfl, hs, ha, ?_⟩
        simp only [ha, Bool.true_eq_false, if_false] at h ⊢
        cases hd : sl.desc with
        | none => exact ⟨.inl rfl, by simp⟩
        | some d =>
          cases hq : sl.qt with
          | none => exact ⟨.inr rfl, by simp⟩
          | some qt => exact absurd (by simp only [hd, hq]; rfl) (h _)

/-! ### Acceptance, command by command -/

theorem exec_start_ok {idx : Index} {w h : Half} {v : BitVec 8} {qt : QTable} {s : State} {sl : Slot}
    (hs : s.slot? idx = some sl) (hl : sl.buffer.len = 0#40)
    (hc : exceedsCapacity s.planeBytesMax (planeBytes w h) = false) :
    exec (.start idx w h v qt) s =
      .next ((s.setSlot idx (startedSlot w h v qt)).respond [statusWord .ok opStart idx]) := by
  simp only [exec, execStart, startNext, hs, hl, hc]
  rfl

theorem exec_appendRow_ok {idx : Index} {c : List Coef} {s : State} {sl : Slot} {d : Desc} {qt : QTable}
    (hs : s.slot? idx = some sl) (ha : sl.active = true) (hd : sl.desc = some d) (hq : sl.qt = some qt)
    (hl : c.length = d.rowBytes) (hb : sl.cursor.toNat + d.rowBytes ≤ sl.buffer.len.toNat) :
    exec (.appendRow idx c) s =
      .next ((s.setSlot idx (appendedSlot idct d qt c sl)).respond [statusWord .ok opAppendRow idx]) := by
  simp only [exec, execAppendRow, appendRowWith, hs, ha, hd, hq, appendToSession]
  rw [if_neg (by simp), if_neg (by simpa using hl), if_neg (by omega)]

theorem exec_getResult_ok {idx : Index} {s : State} {sl : Slot} (hs : s.slot? idx = some sl) :
    exec (.getResult idx) s =
      .next ((s.setSlot idx (drainedSlot sl)).respond (dataResponse opGetResult idx sl.buffer)) := by
  simp only [exec, execGetResult, getResultNext, hs]

/-- The cursor of an accepted row is exact: 40 bits hold it (rule R127). -/
theorem cursor_appendedSlot {t : CoefBlock → QTable → SampleBlock} {d : Desc} {qt : QTable} {c : List Coef} {sl : Slot}
    (hb : sl.cursor.toNat + d.rowBytes ≤ sl.buffer.len.toNat) :
    (appendedSlot t d qt c sl).cursor.toNat = sl.cursor.toNat + d.rowBytes := by
  have := sl.buffer.len.isLt
  simp only [appendedSlot, BitVec.toNat_ofNat]
  exact Nat.mod_eq_of_lt (by omega)

/-! ### What a command depends on -/

/-- A command depends on its own slot and the capacity alone (rule R28): on two states that agree there, it raises the
same error, or writes the same slot and sends the same response. -/
theorem exec_congr {i : Instr} {s s' t : State} (hc : s.planeBytesMax = s'.planeBytesMax)
    (hs : s.slot? i.idx = s'.slot? i.idx) (he : exec i s = .next t) :
    (∃ e, e ≠ Status.ok ∧ t = s.raise e i.op i.idx ∧ exec i s' = .next (s'.raise e i.op i.idx)) ∨
      ∃ sl sl' ws, s.slot? i.idx = some sl ∧ t = (s.setSlot i.idx sl').respond ws ∧
        exec i s' = .next ((s'.setSlot i.idx sl').respond ws) ∧ Accepted i s sl t := by
  cases i with
  | start idx w h v qt =>
    simp only [exec, execStart, startNext, Host.Outcome.next.injEq, Instr.idx_start] at he hs ⊢
    rw [← hs, ← hc]
    cases hx : s.slot? idx with
    | none => simp only [hx] at he ⊢; exact .inl ⟨_, by decide, he.symm, rfl⟩
    | some sl =>
      simp only [hx] at he ⊢
      split at he
      · rename_i h1; rw [if_pos h1]; exact .inl ⟨_, by decide, he.symm, rfl⟩
      · rename_i h1; rw [if_neg h1]
        split at he
        · rename_i h2; rw [if_pos h2]; exact .inl ⟨_, by decide, he.symm, rfl⟩
        · rename_i h2; rw [if_neg h2]
          exact .inr ⟨sl, _, _, rfl, he.symm, rfl, by simpa using h1, by simpa using h2, he.symm⟩
  | appendRow idx c =>
    simp only [exec, execAppendRow, appendRowWith, Instr.idx_appendRow] at he hs ⊢
    rw [← hs]
    cases hx : s.slot? idx with
    | none => simp only [hx, Host.Outcome.next.injEq] at he ⊢; exact .inl ⟨_, by decide, he.symm, rfl⟩
    | some sl =>
      simp only [hx] at he ⊢
      cases ha : sl.active with
      | false => simp [ha] at he ⊢; exact .inl ⟨_, by decide, he.symm, rfl⟩
      | true =>
        simp only [ha, Bool.true_eq_false, if_false] at he ⊢
        cases hd : sl.desc with
        | none => simp [hd] at he
        | some d =>
          cases hq : sl.qt with
          | none => simp [hd, hq] at he
          | some qt =>
            simp only [hd, hq, appendToSession, Host.Outcome.next.injEq] at he ⊢
            split at he
            · rename_i h1; rw [if_pos h1]; exact .inl ⟨_, by decide, he.symm, rfl⟩
            · rename_i h1; rw [if_neg h1]
              split at he
              · rename_i h2; rw [if_pos h2]; exact .inl ⟨_, by decide, he.symm, rfl⟩
              · rename_i h2; rw [if_neg h2]
                exact .inr ⟨sl, _, _, rfl, he.symm, rfl, d, qt, ha, hd, hq, by simpa using h1, by omega, he.symm⟩
  | getResult idx =>
    simp only [exec, execGetResult, getResultNext, Host.Outcome.next.injEq, Instr.idx_getResult] at he hs ⊢
    rw [← hs]
    cases hx : s.slot? idx with
    | none => simp only [hx] at he ⊢; exact .inl ⟨_, by decide, he.symm, rfl⟩
    | some sl => simp only [hx] at he ⊢; exact .inr ⟨sl, _, _, rfl, he.symm, rfl, he.symm⟩

end Sys2Proof.Machine
end

