-- ==== Sys2Proof/Laws/Step.lean ====
section
/-!
SUPPORT. What a step can do, said once (`step_cases`), and the laws of several steps.
-/

namespace Sys2Proof.Machine

/-- Everything a step that answers a next state can have done (rules R40, R80, R170, R182, R190). -/
theorem step_cases {s t : State} (h : step s = .next t) :
    (s.resetIn = true ∧ t = s.takeReset) ∨
    (s.resetIn = false ∧ s.halted = true ∧ t = s) ∨
    (s.resetIn = false ∧ s.halted = false ∧
      ((decode s.cmdPort = .incomplete ∧ t = s) ∨
        (∃ op idx n, decode s.cmdPort = .illegal op idx n ∧ t = s.takeIllegal op idx n) ∨
        ∃ i n, decode s.cmdPort = .command i n ∧ exec i (s.consume n) = .next t)) := by
  unfold step at h
  cases hr : s.resetIn with
  | true => exact .inl ⟨rfl, by simpa [hr] using h.symm⟩
  | false =>
    simp only [hr, Bool.false_eq_true, if_false] at h
    cases hh : s.halted with
    | true => exact .inr (.inl ⟨rfl, rfl, by simpa [hh] using h.symm⟩)
    | false =>
      refine .inr (.inr ⟨rfl, rfl, ?_⟩)
      simp only [hh, Bool.false_eq_true, if_false] at h
      cases hd : decode s.cmdPort with
      | incomplete => exact .inl ⟨rfl, by simpa [hd] using h.symm⟩
      | illegal op idx n => exact .inr (.inl ⟨op, idx, n, rfl, by simpa [hd] using h.symm⟩)
      | command i n => exact .inr (.inr ⟨i, n, rfl, by simpa [hd] using h⟩)

@[simp] theorem stepN_zero (s : State) : stepN 0 s = .next s := rfl

theorem stepN_succ_next {s t : State} (n : Nat) (h : step s = .next t) : stepN (n + 1) s = stepN n t := by
  simp [stepN, h]

/-- What one step keeps, `n` steps keep. -/
theorem stepN_induct {P : State → Prop} (hstep : ∀ s t, P s → step s = .next t → P t) {n : Nat} {s t : State}
    (hs : P s) (h : stepN n s = .next t) : P t := by
  induction n generalizing s with
  | zero =>
    obtain rfl : s = t := by simpa using h
    exact hs
  | succ n ih =>
    cases hst : step s with
    | next u => exact ih (hstep _ _ hs hst) (by simpa [stepN, hst] using h)
    | fault r => simp [stepN, hst] at h
    | refused r => simp [stepN, hst] at h

end Sys2Proof.Machine
end

