-- ==== Sys2Proof/Laws/Fairness.lean ====
section
/-!
SUPPORT. What the moves of a run do to a command that is due, said once: every move but the unit's own step and a reset
leaves it due.
-/

namespace Sys2Proof.Machine

theorem State.commandDue_iff (s : State) :
    s.commandDue = true ↔ s.resetIn = false ∧ s.halted = false ∧ decode s.cmdPort ≠ .incomplete := by
  simp [State.commandDue, and_assoc]

theorem State.turnDue_of_commandDue {s : State} (h : s.commandDue = true) : s.turnDue = true := by
  simp [State.turnDue, h]

/-- A host read changes nothing but the response port. -/
theorem State.hostRead_eq {s t : State} {w : Word} (h : s.hostRead = some (w, t)) :
    s.respPort = w :: t.respPort ∧ t = { s with respPort := t.respPort } := by
  unfold State.hostRead at h
  split at h
  · simp at h
  · simp only [Option.some.injEq, Prod.mk.injEq] at h
    obtain ⟨rfl, rfl⟩ := h
    exact ⟨‹_›, rfl⟩

/-- A move that is neither the unit's step nor a reset leaves the slots, the reset input and the halt, and a decided
command at the head of the port stays the same command. -/
theorem Move.Takes.keeps {m : Move} {s t : State} (h : m.Takes s t) (hs : m ≠ .step) (hr : m ≠ .reset) :
    t.slots = s.slots ∧ t.resetIn = s.resetIn ∧ t.halted = s.halted ∧
      (decode s.cmdPort ≠ .incomplete → decode t.cmdPort = decode s.cmdPort) := by
  cases m with
  | step => exact absurd rfl hs
  | reset => exact absurd rfl hr
  | idle =>
    obtain rfl : t = s := h
    exact ⟨rfl, rfl, rfl, fun _ => rfl⟩
  | write ws =>
    obtain rfl : t = s.hostWrite ws := h
    exact ⟨rfl, rfl, rfl, fun hd => decode_append_of hd ws⟩
  | read =>
    obtain ⟨w, h⟩ := h
    rw [(State.hostRead_eq h).2]
    exact ⟨rfl, rfl, rfl, fun _ => rfl⟩

/-- A unit's step as a move of the system is `stepUnit`. -/
theorem System.Takes.stepUnit_eq {j : Nat} {sys sys' : System} (h : System.Takes j .step sys sys') :
    sys' = sys.stepUnit j := by
  obtain ⟨u, t, hu, ht, rfl⟩ := h
  have ht : step u = .next t := ht
  simp [System.stepUnit, hu, ht]

end Sys2Proof.Machine
end

