-- ==== Sys2Proof/Laws/Memory.lean ====
section
/-!
SUPPORT. Every operation keeps the planes in canonical form (log entry 3). What each operation of one plane keeps is in
`Laws/Plane.lean` and `Laws/Placement.lean`; here is what the operations of the whole unit keep.
-/

namespace Sys2Proof.Machine

theorem Memory.wf_iff (s : State) : Memory.wf s = true ↔ ∀ sl ∈ s.slots, sl.buffer.wf = true := by
  simp [Memory.wf]

/-- The plane of a slot that an index names is in canonical form. -/
theorem Memory.wf_slot? {s : State} (h : Memory.wf s = true) {idx : Index} {sl : Slot} (hs : s.slot? idx = some sl) :
    sl.buffer.wf = true :=
  (Memory.wf_iff s).1 h sl (State.mem_of_slot?_eq_some hs)

@[simp] theorem Memory.wf_resetOf (n : Nat) (cap : Option Nat) : Memory.wf (State.resetOf n cap) = true := by
  rw [Memory.wf_iff]
  intro sl hsl
  obtain rfl := List.eq_of_mem_replicate hsl
  rfl

/-- The state after reset has its planes in canonical form: all are empty (rule R39). -/
theorem Memory.wf_reset : Memory.wf State.reset = true := Memory.wf_resetOf _ _

@[simp] theorem Memory.wf_takeReset (s : State) : Memory.wf s.takeReset = true := Memory.wf_resetOf _ _

theorem Memory.wf_setSlot {s : State} (h : Memory.wf s = true) (idx : Index) {sl : Slot} (hsl : sl.buffer.wf = true) :
    Memory.wf (s.setSlot idx sl) = true := by
  rw [Memory.wf_iff] at h ⊢
  intro x hx
  rcases State.mem_slots_setSlot hx with rfl | hx
  · exact hsl
  · exact h x hx

@[simp] theorem Memory.wf_respond (s : State) (ws : List Word) : Memory.wf (s.respond ws) = Memory.wf s := rfl

@[simp] theorem Memory.wf_consume (s : State) (n : Nat) : Memory.wf (s.consume n) = Memory.wf s := rfl

@[simp] theorem Memory.wf_raise (s : State) (e : Status) (op : BitVec 8) (idx : Index) :
    Memory.wf (s.raise e op idx) = Memory.wf s := rfl

@[simp] theorem Memory.wf_takeIllegal (s : State) (op : BitVec 8) (idx : Index) (n : Nat) :
    Memory.wf (s.takeIllegal op idx n) = Memory.wf s := rfl

@[simp] theorem Memory.wf_hostWrite (s : State) (ws : List Word) : Memory.wf (s.hostWrite ws) = Memory.wf s := rfl

@[simp] theorem Memory.wf_hostReset (s : State) : Memory.wf s.hostReset = Memory.wf s := rfl

theorem Memory.wf_hostRead {s t : State} {w : Word} (h : s.hostRead = some (w, t)) : Memory.wf t = Memory.wf s := by
  unfold State.hostRead at h
  split at h
  · simp at h
  · simp only [Option.some.injEq, Prod.mk.injEq] at h
    rw [← h.2]
    rfl

end Sys2Proof.Machine
end

