-- ==== Sys2Proof/Laws/PerInstr.lean ====
section
/-!
SUPPORT. The families of statements that are made command by command (`LAWS.json`).
-/

namespace Sys2Proof.Laws.EncodeShape

/-- The command's words are as many as rule R70 says, and the first carries its opcode and index with the reserved bits
0 (rule R71). -/
def Statement (i : Instr) : Prop :=
  (encode i).length = i.words ∧ (encode i).head? = some (commandWord i.op i.idx)

theorem start (idx : Index) (w h : Half) (v : BitVec 8) (qt : QTable) : Statement (.start idx w h v qt) :=
  ⟨length_encode _, rfl⟩

theorem appendRow (idx : Index) (coefs : List Coef) : Statement (.appendRow idx coefs) :=
  ⟨length_encode _, rfl⟩

theorem getResult (idx : Index) : Statement (.getResult idx) :=
  ⟨length_encode _, rfl⟩

end Sys2Proof.Laws.EncodeShape
end

