-- ==== Sys2Proof/Laws/Run.lean ====
section
/-!
SUPPORT. The laws of commands executed one after another (`execAll`).
-/

namespace Sys2Proof.Machine

@[simp] theorem execAll_nil (s : State) : execAll [] s = .next s := rfl

theorem execAll_cons {i : Instr} {rest : List Instr} {s t : State} (hh : s.halted = false) (he : exec i s = .next t) :
    execAll (i :: rest) s = execAll rest t := by
  simp [execAll, hh, he]

theorem execAll_cons_inv {i : Instr} {rest : List Instr} {s t : State} (hh : s.halted = false)
    (he : execAll (i :: rest) s = .next t) : ∃ u, exec i s = .next u ∧ execAll rest u = .next t := by
  simp only [execAll, hh] at he
  cases hx : exec i s with
  | next u => exact ⟨u, rfl, by simpa [hx] using he⟩
  | fault r => simp [hx] at he
  | refused r => simp [hx] at he

/-- A halted unit executes nothing (rule R170). -/
theorem execAll_halted {is : List Instr} {s t : State} (hh : s.halted = true) (he : execAll is s = .next t) : t = s := by
  cases is <;> simp [execAll, hh] at he <;> exact he.symm

/-- A unit that is not halted at the end was not halted at the start. -/
theorem halted_of_execAll {is : List Instr} {s t : State} (he : execAll is s = .next t) (ht : t.halted = false) :
    s.halted = false := by
  cases hx : s.halted with
  | false => rfl
  | true =>
    obtain rfl := execAll_halted hx he
    rw [hx] at ht
    exact ht

theorem execAll_append {is js : List Instr} {s t : State} (h : execAll is s = .next t) (ht : t.halted = false) :
    execAll (is ++ js) s = execAll js t := by
  induction is generalizing s with
  | nil =>
    obtain rfl : s = t := by simpa using h
    rfl
  | cons i rest ih =>
    have hh := halted_of_execAll h ht
    obtain ⟨u, hu, hr⟩ := execAll_cons_inv hh h
    rw [List.cons_append, execAll_cons hh hu]
    exact ih hr

/-- What every accepted command keeps, a run of commands with no error keeps. -/
theorem execAll_induct {P : State → Prop} {is : List Instr}
    (hstep : ∀ i ∈ is, ∀ s sl t, P s → s.slot? i.idx = some sl → Accepted i s sl t → P t) {s t : State}
    (hs : P s) (he : execAll is s = .next t) (ht : t.halted = false) : P t := by
  induction is generalizing s with
  | nil =>
    obtain rfl : s = t := by simpa using he
    exact hs
  | cons i rest ih =>
    obtain ⟨u, hu, hr⟩ := execAll_cons_inv (halted_of_execAll he ht) he
    rcases exec_cases hu with ⟨e, -, rfl⟩ | ⟨sl, hsl, ha⟩
    · obtain rfl := execAll_halted rfl hr
      simp at ht
    · exact ih (fun j hj => hstep j (List.mem_cons_of_mem _ hj)) (hstep i List.mem_cons_self _ _ _ hs hsl ha) hr

end Sys2Proof.Machine
end

