-- ==== Sys2Proof/Tests/Slice0.lean ====
section
/-!
SUPPORT. Tests. Expected values come from `spec/95_test_vectors.md` (named E, T, A, B, G, H there) and from the worked
examples of the rules; the second part shows, for each statement with hypotheses, values that meet all of them.
-/

namespace Sys2Proof.Tests

open Sys2Proof Sys2Proof.Machine

/-! ### Helpers -/

/-- A unit of 4 slots with `PLANE_BYTES_MAX = 1024`, just reset. -/
def unit4 : State := State.resetOf 4 (some 1024)

/-- `flat(1)`. -/
def ones : QTable := flatTable 1#16

/-- Slot 0 of `unit4` after `start 0, w, h, v, flat(1)`, but for the response. -/
def after (w h : Half) (v : BitVec 8) : State := unit4.setSlot 0#8 (startedSlot w h v ones)

/-- The test stub transform of program Prog2: `(c[0] * q[0]) mod 256` at every position. -/
def stub (coefs : CoefBlock) (qt : QTable) : SampleBlock :=
  Vector.replicate 64 (BitVec.ofInt 8 (coefs[0].toInt * (qt[0].toNat : Int)))

/-- The state of an outcome that has one. -/
def nextOf : Host.Outcome State Fault Refusal → Option State
  | .next s => some s
  | _ => none

/-! ### Well-formedness -/

/-- The one check refuses a row of 2^32 coefficients: `N` has 32 bits (rule R75). -/
theorem test_wf_refuses_too_many_coefs : (Instr.appendRow 0#8 (List.replicate (2 ^ 32) 0#16)).wf = false := by
  simp only [Instr.wf, List.length_replicate]
  decide

/-- One coefficient fewer is well formed. -/
theorem test_wf_takes_the_longest_row : (Instr.appendRow 0#8 (List.replicate (2 ^ 32 - 1) 0#16)).wf = true := by
  simp only [Instr.wf, List.length_replicate]
  decide

/-! ### Decoding, from words written out of the spec's tables -/

/-- R88: `get_result 2` is `0x00000203`. -/
theorem test_decode_getResult : decode [0x00000203#32] = .command (.getResult 2#8) 1 := by decide

/-- E10: the padding half `0xABCD` is no coefficient. -/
theorem test_decode_appendRow_odd :
    decode [0x00000002#32, 0x00000001#32, 0xABCD8000#32] = .command (.appendRow 0#8 [0x8000#16]) 3 := by decide

/-- R88: `append_row 1, [5, -1, 7]`. -/
theorem test_decode_appendRow_three :
    decode [0x00000102#32, 0x00000003#32, 0xFFFF0005#32, 0x00000007#32] =
      .command (.appendRow 1#8 [5#16, 0xFFFF#16, 7#16]) 4 := by decide

/-- E13, E14: `w = 2`, `h = 4`, `v = 2`; `qt[0] = 0` and `qt[1] = 65535`. -/
theorem test_decode_start :
    decode (0x00000301#32 :: 0x00040002#32 :: 0x00000002#32 :: 0xFFFF0000#32 :: List.replicate 31 0x00010001#32) =
      .command (.start 3#8 2#16 4#16 2#8
        (Vector.ofFn fun k => if k = 0 then 0#16 else if k = 1 then 65535#16 else 1#16)) 35 := by decide

/-- E3 to E5: reserved opcodes. -/
theorem test_decode_reserved_op : decode [0x00000000#32] = .illegal 0x00#8 0#8 1 ∧
    decode [0x00000004#32] = .illegal 0x04#8 0#8 1 ∧ decode [0x000000FF#32] = .illegal 0xFF#8 0#8 1 := by decide

/-- E6, E7: `rsv0` is not 0. -/
theorem test_decode_reserved_bits0 : decode [0x00010003#32] = .illegal 0x03#8 0#8 1 ∧
    decode [0x80000102#32] = .illegal 0x02#8 1#8 1 := by decide

/-- The word that vector E2 prints has `rsv0 = 0x00FF`, so by rule R71 it is illegal (log entry 15). -/
theorem test_decode_vector_E2 : decode [0x00FF0003#32] = .illegal 0x03#8 0#8 1 := by decide

/-- E8: `rsv2 = 1`, and the command is still 35 words long. -/
theorem test_decode_reserved_bits2 :
    decode (0x00000001#32 :: 0x00010001#32 :: 0x00000101#32 :: List.replicate 32 0x00010001#32) =
      .illegal 0x01#8 0#8 35 := by decide

/-- E12: 2^31 + 2 words; the count does not wrap. E15: a START of 11 words. Both wait. -/
theorem test_decode_incomplete : commandLength 0x00000002#32 0xFFFFFFFF#32 = 2147483650 ∧
    decode [0x00000002#32, 0xFFFFFFFF#32] = .incomplete ∧
    decode (0x00000001#32 :: List.replicate 10 0#32) = .incomplete := by decide

/-- The three rows of the opcode table, with every operand bit 0. -/
theorem test_decodeTableWord : decodeTableWord 32 1 = some (.start 0#8 0#16 0#16 0#8 (flatTable 0#16)) ∧
    decodeTableWord 32 2 = some (.appendRow 0#8 []) ∧ decodeTableWord 32 3 = some (.getResult 0#8) := by decide

/-- The first step after reset runs a placed command: GET_RESULT on slot 0 answers three words (G1). -/
theorem test_first_step_after_reset :
    (nextOf (step (State.reset.withFetchWord 32 3))).map (·.respPort) = some [0x00000300#32, 0#32, 0#32] := rfl

/-! ### START -/

/-- T7: 1280 bytes do not fit 1024. T9: SlotBusy comes before CapacityExceeded. -/
theorem test_start_checks :
    (startNext 1#8 4#16 5#16 1#8 ones unit4).respPort = [0x00010106#32] ∧
    (startNext 0#8 400#16 400#16 1#8 ones (after 3#16 2#16 2#8)).respPort = [0x00000101#32] := by decide

/-- T10: the largest plane. -/
theorem test_start_largest_plane :
    (startNext 0#8 65535#16 65535#16 255#8 ones (State.resetOf 1 none)).slots.map (·.buffer.len.toNat) =
      [274869518400] := by decide

/-! ### APPEND_ROW -/

/-- B7: the length is checked before the bounds. B2: the index before the session. -/
theorem test_appendRow_checks :
    (nextOf (exec (.appendRow 9#8 (zeroCoefs 5)) unit4)).map (·.respPort) = some [0x00090203#32] ∧
    (nextOf (exec (.appendRow 0#8 (zeroCoefs 64)) (unit4.setSlot 0#8
      { startedSlot 2#16 2#16 1#8 ones with cursor := 256#40 }))).map (·.respPort) = some [0x00000202#32] := by decide

/-- R142, A10, A11: base offsets of six blocks, and one sample's offset. -/
theorem test_placement_offsets :
    (List.range 6).map (blockBase 3 0) = [0, 8, 16, 192, 200, 208] ∧ sampleOffset 3 384 4 21 = 637 ∧
      sampleOffset 3 0 2 63 = 191 ∧ sampleOffset 3 0 5 63 = 383 := by decide

/-- Prog2, first row on a 2 by 2 grid (`w = 2`, `v = 2`): blocks of value 2, 4, 6, 8 at the corners of the row, and the
cursor one row on. -/
theorem test_appendRow_places :
    (nextOf (appendRowWith stub 0#8 (dcBlock 1#16 ++ dcBlock 2#16 ++ dcBlock 3#16 ++ dcBlock 4#16)
      (unit4.setSlot 0#8 (startedSlot 2#16 2#16 2#8 (ones.set 0 2#16))))).map (fun t => t.slots.map fun sl =>
        (sl.cursor.toNat, [0, 7, 8, 127, 128, 135, 136, 255].map sl.buffer.read)) =
      some ((256, [2#8, 2#8, 4#8, 4#8, 6#8, 6#8, 8#8, 8#8]) ::
        List.replicate 3 (0, List.replicate 8 0#8)) := by decide +kernel

/-! ### GET_RESULT -/

/-- Packing: bytes `01 02 03 04` give `0x04030201`. -/
theorem test_getResult_packs : packBytes 1#8 2#8 3#8 4#8 = 0x04030201#32 := by decide

/-- G5 and R157: the length words of the largest plane. -/
theorem test_getResult_length_words : lengthLow 274869518400#40 = 0xFF800040#32 ∧
    lengthHigh 274869518400#40 = 0x0000003F#32 := by decide

/-! ### The step -/

/-- H1: an illegal word, then a command that is never read. -/
theorem test_halt_after_illegal :
    (nextOf (stepN 2 (unit4.hostWrite [0x00000004#32, 0x00000003#32]))).map
      (fun t => (t.respPort, t.cmdPort, t.faultCode, t.haltedOut)) =
      some ([0x00000407#32], [0x00000003#32], 7#8, true) := by decide

/-- H3: reset takes the unit out of the halt and discards the waiting word. -/
theorem test_reset_after_halt :
    (nextOf (stepN 1 ((unit4.hostWrite [0x00000004#32, 0x00000003#32]).takeIllegal 4#8 0#8 1).hostReset)).map
      (fun t => (t.respPort, t.cmdPort, t.faultCode, t.haltedOut)) = some ([], [], 0#8, false) := by decide

/-- Log entry 18, the model's choice: a word written after reset is asserted and before the step that takes it is
discarded, and a response sent before can be read in that gap. -/
theorem test_reset_gap :
    (nextOf (step ((unit4.respond [7#32]).hostReset.hostWrite [0x00000003#32]))).map
      (fun t => (t.cmdPort, t.respPort)) = some ([], []) ∧
    ((unit4.respond [7#32]).hostReset.hostRead).map (·.1) = some 7#32 := by decide

/-! ### Memory -/

/-- Writing 0 removes the cell: equal planes are equal data. -/
theorem test_plane_canonical :
    ((((Plane.zeros 64).write 5 7#8).write 3 9#8).write 5 0#8) = (Plane.zeros 64).write 3 9#8 := by decide

theorem test_reset_memory_canonical : Memory.wf State.reset = true := Memory.wf_reset

/-! ### Witnesses: values that meet a statement's hypotheses -/

theorem test_witness_DecodeReadsBackEncode :
    (Instr.start 255#8 65535#16 65535#16 255#8 ones).wf = true ∧ (Instr.appendRow 255#8 [0x8000#16]).wf = true ∧
      (Instr.getResult 255#8).wf = true := by decide

theorem test_witness_EncodeGivesBackDecodedWords :
    decode [0x00000002#32, 0x00000002#32, 0x7FFFFFFF#32] = .command (.appendRow 0#8 [0xFFFF#16, 0x7FFF#16]) 3 ∧
      [0xFFFF#16, 0x7FFF#16].length % 2 = 0 := by decide

theorem test_witness_DecodeTakesItsOwnWordsOnly :
    decode [0x00000003#32, 7#32] = .command (.getResult 0#8) 1 ∧
      [0x00000003#32, 9#32].take 1 = [0x00000003#32, 7#32].take 1 := by decide

theorem test_witness_OddPaddingIsIgnored :
    ([] : List Coef).length % 2 = 0 ∧ ([] : List Coef).length + 1 < 2 ^ 32 ∧
      (List.replicate (2 ^ 32 - 2) 0#16).length % 2 = 0 ∧ (List.replicate (2 ^ 32 - 2) 0#16).length + 1 < 2 ^ 32 := by
  simp only [List.length_replicate, List.length_nil]
  decide

theorem test_witness_StepRunsTheDecodedCommand :
    (unit4.hostWrite [0x00000003#32]).resetIn = false ∧ (unit4.hostWrite [0x00000003#32]).halted = false ∧
      decode (unit4.hostWrite [0x00000003#32]).cmdPort = .command (.getResult 0#8) 1 := by decide

theorem test_witness_PlacedCommandRunsNext : decodeTableWord 32 0x203 = some (.getResult 2#8) := by decide

/-- One state for each of the three illegal encodings; the reserved fields at their smallest illegal values. -/
theorem test_witness_IllegalCommandHaltsTheUnit :
    unit4.resetIn = false ∧ unit4.halted = false ∧
    (0x00000004#32).extractLsb' 0 8 ∉ [0x01#8, 0x02#8, 0x03#8] ∧ (0x00010003#32).extractLsb' 16 16 ≠ 0#16 ∧
    ((0x00000001#32).extractLsb' 0 8 = 0x01#8 ∧ (0x00000001#32).extractLsb' 16 16 = 0#16 ∧
      (0x00000100#32).extractLsb' 8 24 ≠ 0#24 ∧ 32 ≤ (List.replicate 32 0#32).length) := by decide

/-- One word short, for each length rule, and the two other waits. -/
theorem test_witness_UnitWaitsHoldingItsState :
    unit4.resetIn = false ∧ unit4.cmdPort = [] ∧ (unit4.raise .slotBusy 1#8 0#8).halted = true ∧
    ((0x00000001#32).extractLsb' 16 16 = 0#16 ∧ (0x00000001#32).extractLsb' 0 8 = 0x01#8 ∧
      (List.replicate 33 0#32).length < 34) ∧
    ((0x00000002#32).extractLsb' 16 16 = 0#16 ∧ (0x00000002#32).extractLsb' 0 8 = 0x02#8 ∧
      [0#32].length < ((3#32).toNat + 1) / 2) := by decide

theorem test_witness_HaltedUnitIgnoresThePort :
    (unit4.raise .slotBusy 1#8 0#8).halted = true ∧ (unit4.raise .slotBusy 1#8 0#8).resetIn = false := by decide

/-- A reset that clears a fault, and a first error. -/
theorem test_witness_FaultLatchChangesOnlyByResetOrFirstError :
    (∃ t, step (unit4.raise .slotBusy 1#8 0#8).hostReset = .next t ∧
      t.fault ≠ (unit4.raise .slotBusy 1#8 0#8).hostReset.fault) ∧
    ∃ t, step (unit4.hostWrite [0x00000004#32]) = .next t ∧ t.fault ≠ (unit4.hostWrite [0x00000004#32]).fault :=
  ⟨⟨_, rfl, by decide⟩, ⟨_, rfl, by decide⟩⟩

theorem test_witness_ParametersNeverChange : ∃ t, step (unit4.hostWrite [0x00000003#32]) = .next t := ⟨_, rfl⟩

/-- The four clauses: the first index with no slot, a non-empty buffer, a plane one block over the capacity, and one that
fills it exactly. -/
theorem test_witness_StartChecksThenOpensASession :
    unit4.slots.length ≤ (4#8).toNat ∧
    ((after 1#16 1#16 1#8).slots[0]? = some (startedSlot 1#16 1#16 1#8 ones) ∧
      (startedSlot 1#16 1#16 1#8 ones).buffer.len ≠ 0#40) ∧
    (unit4.slots[3]? = some Slot.atReset ∧ Slot.atReset.buffer.len = 0#40 ∧ unit4.planeBytesMax = some 1024 ∧
      1024 < (17#16).toNat * (1#16).toNat * 64) ∧
    (16#16).toNat * (1#16).toNat * 64 ≤ 1024 := by decide

theorem test_witness_StartedPlaneIsZeroAndExact :
    unit4.halted = false ∧ ∃ t, exec (.start 3#8 16#16 1#16 1#8 ones) unit4 = .next t ∧ t.halted = false :=
  ⟨rfl, _, rfl, rfl⟩

/-- A success and a failure. -/
theorem test_witness_StartFrame :
    (∃ t, exec (.start 0#8 1#16 1#16 1#8 ones) unit4 = .next t ∧ t.halted = false) ∧
      ∃ t, exec (.start 4#8 1#16 1#16 1#8 ones) unit4 = .next t ∧ t.halted = true :=
  ⟨⟨_, rfl, rfl⟩, ⟨_, rfl, rfl⟩⟩

theorem test_witness_SecondStartIsSlotBusy :
    0 < (1#16).toNat * (1#16).toNat ∧ unit4.halted = false ∧ Instr.getResult 0#8 ∉ [Instr.getResult 1#8] ∧
      ∃ t, execAll [.start 0#8 1#16 1#16 1#8 ones, .getResult 1#8] unit4 = .next t ∧ t.halted = false :=
  ⟨by decide, rfl, by decide, _, rfl, rfl⟩

theorem test_witness_ZeroSizeSessionRestarts :
    unit4.halted = false ∧ unit4.slots[0]? = some Slot.atReset ∧ Slot.atReset.buffer.len = 0#40 ∧
      unit4.planeBytesMax = some 1024 ∧ (4#16).toNat * (4#16).toNat * 64 ≤ 1024 := by decide

/-- The five clauses; the row of clause 5 fits exactly, that of clause 4 is one row too many. -/
theorem test_witness_AppendRowChecksThenPlacesEveryBlock :
    unit4.slots.length ≤ (4#8).toNat ∧
    (unit4.slots[0]? = some Slot.atReset ∧ Slot.atReset.active = false) ∧
    ((after 2#16 1#16 1#8).slots[0]? = some (startedSlot 2#16 1#16 1#8 ones) ∧
      (startedSlot 2#16 1#16 1#8 ones).active = true ∧
      (startedSlot 2#16 1#16 1#8 ones).desc = some ⟨2#16, 1#16, 1#8⟩ ∧
      (startedSlot 2#16 1#16 1#8 ones).qt = some ones ∧
      (zeroCoefs 127).length ≠ (2#16).toNat * (1#8).toNat * 64 ∧
      (zeroCoefs 128).length = (2#16).toNat * (1#8).toNat * 64 ∧
      (startedSlot 2#16 1#16 1#8 ones).cursor.toNat + (zeroCoefs 128).length ≤
        (startedSlot 2#16 1#16 1#8 ones).buffer.len.toNat ∧
      (startedSlot 2#16 1#16 1#8 ones).buffer.wf = true) ∧
    ({ startedSlot 2#16 1#16 1#8 ones with cursor := 128#40 } : Slot).buffer.len.toNat <
      (128#40).toNat + (zeroCoefs 128).length := by decide +kernel

theorem test_witness_AppendRowFrame :
    (∃ t, exec (.appendRow 0#8 (zeroCoefs 64)) (after 1#16 1#16 1#8) = .next t ∧ t.halted = false) ∧
      ∃ t, exec (.appendRow 0#8 []) unit4 = .next t ∧ t.halted = true :=
  ⟨⟨_, rfl, rfl⟩, ⟨_, rfl, rfl⟩⟩

/-- A10 again: block 4, position 21 of a row at 384; and the last offset of that row. -/
theorem test_witness_RowOffsetsAreABijection :
    4 < 3 * 2 ∧ sampleOffset 3 384 4 21 = 637 ∧ 384 ≤ 767 ∧ 767 < 384 + 3 * 2 * 64 := by decide

theorem test_witness_BlockOrderDoesNotMatter :
    (Plane.zeros 128).wf = true ∧ 0 + 2 * 1 * 64 ≤ (Plane.zeros 128).len.toNat ∧ [1, 0].Perm (List.range (2 * 1)) := by
  decide

/-- Both cases: a grid of width 0, and a sampling factor 0. -/
theorem test_witness_EmptyRowsChangeNothing :
    (after 0#16 4#16 1#8).halted = false ∧
    (after 0#16 4#16 1#8).slots[0]? = some (startedSlot 0#16 4#16 1#8 ones) ∧
    (startedSlot 0#16 4#16 1#8 ones).active = true ∧ (startedSlot 0#16 4#16 1#8 ones).qt = some ones ∧
    (startedSlot 0#16 4#16 1#8 ones).desc = some ⟨0#16, 4#16, 1#8⟩ ∧
    (startedSlot 2#16 2#16 0#8 ones).desc = some ⟨2#16, 2#16, 0#8⟩ ∧
    (startedSlot 2#16 2#16 0#8 ones).cursor.toNat ≤ (startedSlot 2#16 2#16 0#8 ones).buffer.len.toNat := by decide

/-- Different operands with the same products: `2 * 3` and `3 * 2`. -/
theorem test_witness_TransformSeesDequantizedProductsOnly :
    ∀ k : Fin 64, (Vector.replicate 64 2#16 : CoefBlock)[k].toInt * ((flatTable 3#16)[k].toNat : Int) =
      (Vector.replicate 64 3#16 : CoefBlock)[k].toInt * ((flatTable 2#16)[k].toNat : Int) := by decide

/-- A grid of 1 by 3 blocks with `v = 2`, and one row: the plane is 192 bytes and the row 128. -/
theorem test_witness_SessionFillsThePlaneRowByRow :
    unit4.halted = false ∧ unit4.slots[0]? = some Slot.atReset ∧ Slot.atReset.buffer.len = 0#40 ∧
      unit4.planeBytesMax = some 1024 ∧ (⟨1#16, 3#16, 2#8⟩ : Desc).planeBytes ≤ 1024 ∧
      (∀ c ∈ [zeroCoefs 128], c.length = (⟨1#16, 3#16, 2#8⟩ : Desc).rowBytes) ∧
      [zeroCoefs 128].length * (⟨1#16, 3#16, 2#8⟩ : Desc).rowBytes ≤ (⟨1#16, 3#16, 2#8⟩ : Desc).planeBytes := by decide +kernel

/-- The same session has room for exactly that row; with height 2 it ends at the plane's end. -/
theorem test_witness_SessionHasRoomForItsRowsOnly :
    0 < (1#16).toNat ∧ 0 < (2#8).toNat ∧ [zeroCoefs 128].length = (3#16).toNat / (2#8).toNat ∧
      [zeroCoefs 128].length = (2#16).toNat / (2#8).toNat ∧ (2#16).toNat % (2#8).toNat = 0 ∧
      (zeroCoefs 128).length = (⟨1#16, 3#16, 2#8⟩ : Desc).rowBytes := by decide +kernel

theorem test_witness_RowWritesExactlyItsLines : 23 < (⟨3#16, 2#16, 2#8⟩ : Desc).lineStride := by decide

theorem test_witness_GeometryNeverWraps :
    384 + (⟨3#16, 4#16, 2#8⟩ : Desc).rowBytes ≤ (⟨3#16, 4#16, 2#8⟩ : Desc).planeBytes ∧
      5 < (⟨3#16, 4#16, 2#8⟩ : Desc).blockCount := by decide

theorem test_witness_GetResultReturnsThePlane :
    unit4.slots.length ≤ (4#8).toNat ∧
      (after 1#16 1#16 1#8).slots[0]? = some (startedSlot 1#16 1#16 1#8 ones) := by decide

theorem test_witness_DataResponseCarriesEveryByte : 15 < (Plane.zeros 64).len.toNat / 4 ∧ 3 < 4 := by decide

theorem test_witness_EmptyResultIsThreeWords :
    unit4.halted = false ∧ unit4.slots[3]? = some Slot.atReset ∧ Slot.atReset.buffer.len = 0#40 := by decide

theorem test_witness_GetResultFrame :
    (∃ t, exec (.getResult 0#8) (after 1#16 1#16 1#8) = .next t ∧ t.halted = false) ∧
      ∃ t, exec (.getResult 4#8) unit4 = .next t ∧ t.halted = true :=
  ⟨⟨_, rfl, rfl⟩, ⟨_, rfl, rfl⟩⟩

theorem test_witness_AppendWithoutASessionIsNotStarted :
    (∀ w h v qt, Instr.start 0#8 w h v qt ∉ [Instr.getResult 1#8]) ∧ (0#8).toNat < 4 ∧
      (∃ t, execAll [.getResult 1#8] unit4 = .next t ∧ t.halted = false) ∧
      ∃ t, execAll [.getResult 0#8, .getResult 1#8] (after 1#16 1#16 1#8) = .next t ∧ t.halted = false :=
  ⟨by simp, by decide, ⟨_, rfl, rfl⟩, ⟨_, rfl, rfl⟩⟩

theorem test_witness_MidSessionResultIsThePlaneAsItStands :
    (∀ c ∈ ([] : List (List Coef)), c.length = (⟨1#16, 1#16, 1#8⟩ : Desc).rowBytes) ∧
      (⟨1#16, 1#16, 1#8⟩ : Desc).planeBytes ≤ 1024 ∧
      ([] : List (List Coef)).length * (⟨1#16, 1#16, 1#8⟩ : Desc).rowBytes ≤
        (⟨1#16, 1#16, 1#8⟩ : Desc).planeBytes ∧
      unit4.slots[0]? = some Slot.atReset ∧ unit4.halted = false := by decide

/-- Prog1's session: a grid of 2 by 2 blocks, `v = 1`, two rows. -/
theorem test_witness_ZeroSessionReturnsAFlatPlane :
    unit4.slots[0]? = some Slot.atReset ∧ (⟨2#16, 2#16, 1#8⟩ : Desc).planeBytes ≤ 1024 ∧
      2 * (⟨2#16, 2#16, 1#8⟩ : Desc).verticalSamplingFactor.toNat =
        (⟨2#16, 2#16, 1#8⟩ : Desc).gridHeight.toNat := by decide

/-- A unit with an open session satisfies the invariant, and has a step that runs a command. -/
theorem test_witness_invariant : (after 1#16 3#16 2#8).Inv where
  slotCount := by decide
  slotInv := by
    intro sl h
    obtain rfl | rfl : sl = startedSlot 1#16 3#16 2#8 ones ∨ sl = Slot.atReset := by
      have : sl ∈ [startedSlot 1#16 3#16 2#8 ones, Slot.atReset, Slot.atReset, Slot.atReset] := h
      simp only [List.mem_cons, List.not_mem_nil, or_false] at this
      tauto
    · exact ⟨by decide, by decide, by decide,
        ⟨⟨1#16, 3#16, 2#8⟩, ones, rfl, rfl, by decide, ⟨0, by decide⟩, by decide⟩⟩
    · exact ⟨by decide, by decide, by decide, rfl⟩
  faultLegal := ⟨.ok, rfl⟩
  haltedIffFault := by decide

theorem test_witness_StepKeepsTheInvariant :
    ((after 1#16 3#16 2#8).hostWrite [0x00000003#32]).Inv ∧
      ∃ t, step ((after 1#16 3#16 2#8).hostWrite [0x00000003#32]) = .next t :=
  ⟨⟨test_witness_invariant.slotCount, test_witness_invariant.slotInv, test_witness_invariant.faultLegal,
    test_witness_invariant.haltedIffFault⟩, _, rfl⟩

theorem test_witness_StepKeepsPlanesCanonical :
    Memory.wf ((after 1#16 3#16 2#8).hostWrite [0x00000003#32]) = true ∧
      ∃ t, step ((after 1#16 3#16 2#8).hostWrite [0x00000003#32]) = .next t :=
  ⟨by decide, _, rfl⟩

theorem test_witness_EveryStepAnswersANextState : (after 1#16 3#16 2#8).Inv := test_witness_invariant

/-- The two ends of the range of `MAX_COMPONENTS`; both statements about reset and runs take any number in it. -/
theorem test_witness_ResetSatisfiesTheInvariant : 1 ≤ 1 ∧ 1 ≤ 256 ∧ 256 ≤ 256 := by decide

theorem test_witness_EveryRunEndsInOneOfThreeOutcomes : 1 ≤ 4 ∧ 4 ≤ 256 := by decide

theorem test_witness_UnitsAreIndependent : (0 : Nat) ≠ 1 := by decide

theorem test_witness_PlaneSizeIsZeroOrTheDescriptors :
    (after 1#16 3#16 2#8).Inv ∧ startedSlot 1#16 3#16 2#8 ones ∈ (after 1#16 3#16 2#8).slots :=
  ⟨test_witness_invariant, by decide⟩

theorem test_witness_AppendRowWithoutSessionStops :
    (unit4.setSlot 0#8 { Slot.atReset with active := true }).slots[0]? = some { Slot.atReset with active := true } ∧
      ({ Slot.atReset with active := true } : Slot).desc = none ∧
      ({ Slot.atReset with active := true } : Slot).qt = none := by decide

theorem test_witness_FailedCommandIsPrecise :
    unit4.halted = false ∧ ∃ t, exec (.getResult 4#8) unit4 = .next t ∧ t.halted = true := ⟨rfl, _, rfl, rfl⟩

theorem test_witness_OneResponsePerCommand :
    unit4.halted = false ∧ ∃ t, exec (.getResult 3#8) unit4 = .next t := ⟨rfl, _, rfl⟩

/-- Two units that agree on slot 3 and differ on slot 0. -/
theorem test_witness_CommandsSeeOnlyTheirSlot :
    unit4.slots.length = (after 1#16 1#16 1#8).slots.length ∧
      unit4.planeBytesMax = (after 1#16 1#16 1#8).planeBytesMax ∧
      unit4.slots[3]? = (after 1#16 1#16 1#8).slots[3]? ∧ unit4.slots[0]? ≠ (after 1#16 1#16 1#8).slots[0]? ∧
      ∃ t, exec (.getResult 3#8) unit4 = .next t :=
  ⟨rfl, rfl, rfl, by decide, _, rfl⟩

/-- A drained slot, with the stale fields of its last session. -/
theorem test_witness_StaleFieldsAreUnobservable :
    (unit4.setSlot 0#8 (drainedSlot (startedSlot 1#16 1#16 1#8 ones))).slots[0]? =
        some (drainedSlot (startedSlot 1#16 1#16 1#8 ones)) ∧
      (drainedSlot (startedSlot 1#16 1#16 1#8 ones)).active = false ∧
      ∃ t, exec (.appendRow 0#8 (zeroCoefs 64))
        (unit4.setSlot 0#8 (drainedSlot (startedSlot 1#16 1#16 1#8 ones))) = .next t :=
  ⟨rfl, rfl, _, rfl⟩

theorem test_witness_PortCommandsRunInOrder :
    (∀ i ∈ [Instr.start 0#8 1#16 1#16 1#8 ones, .getResult 0#8], i.wf = true) ∧ unit4.resetIn = false ∧
      unit4.halted = false ∧ unit4.cmdPort = [] ∧
      ∃ t, execAll [.start 0#8 1#16 1#16 1#8 ones, .getResult 0#8] unit4 = .next t ∧ t.halted = false :=
  ⟨by decide, rfl, rfl, rfl, _, rfl, rfl⟩

/-- A command already on the port, and a response word not yet read. -/
theorem test_witness_HostMayWriteAheadAndReadAtAnyTime :
    let s := (unit4.hostWrite [0x00000003#32]).respond [0x00000100#32]
    s.resetIn = false ∧ decode s.cmdPort ≠ .incomplete ∧ (∃ t, step s = .next t) ∧
      ∃ s', s.hostRead = some (0x00000100#32, s') :=
  ⟨rfl, by decide, ⟨_, rfl⟩, ⟨_, rfl⟩⟩

/-- A run: a GET_RESULT is on the port, the unit takes its turn (G1), and then nothing happens. -/
def shortRun : Nat → State
  | 0 => unit4.hostWrite [0x00000003#32]
  | _ + 1 => unit4.respond [0x00000300#32, 0#32, 0#32]

/-- The moves of that run. -/
def shortMoves : Nat → Move
  | 0 => .step
  | _ + 1 => .idle

theorem test_shortRun_isRun : IsRun shortRun shortMoves := fun n =>
  match n with
  | 0 => rfl
  | _ + 1 => rfl

theorem test_shortRun_fair : WeaklyFair shortRun shortMoves := fun n h =>
  absurd (h (n + 1) (Nat.le_succ n)) (by decide : ¬ (shortRun 1).turnDue = true)

/-- Not every run is fair: a unit with a command due that is idle for ever. -/
theorem test_idle_unfair : ¬ WeaklyFair (fun _ => shortRun 0) (fun _ => .idle) := fun h => by
  obtain ⟨m, -, hm⟩ := h 0 fun _ _ => (by decide : (shortRun 0).turnDue = true)
  cases hm

theorem test_witness_FairRunExecutesTheHeadCommand :
    IsRun shortRun shortMoves ∧ WeaklyFair shortRun shortMoves ∧ (shortRun 0).resetIn = false ∧
      (shortRun 0).halted = false ∧ decode (shortRun 0).cmdPort ≠ .incomplete :=
  ⟨test_shortRun_isRun, test_shortRun_fair, rfl, rfl, by decide⟩

theorem test_witness_FairRunsExist : (after 1#16 3#16 2#8).Inv := test_witness_invariant

/-- Two units: unit 1 takes the turns of `shortRun`, unit 0 does nothing. Both are treated fairly. -/
theorem test_witness_SystemRunIsARunOfEachUnit :
    System.IsRun (fun n => { units := [unit4, shortRun n] }) (fun _ => 1) shortMoves ∧
      ([unit4, shortRun 0] : List State)[0]? = some unit4 ∧
      System.WeaklyFair (fun n => { units := [unit4, shortRun n] }) (fun _ => 1) shortMoves := by
  refine ⟨fun n => ⟨shortRun n, shortRun (n + 1), rfl, test_shortRun_isRun n, rfl⟩, rfl, fun j τ hτ => ?_⟩
  match j with
  | 0 =>
    have : τ = fun _ => unit4 := funext fun n => by simpa using (hτ n).symm
    subst this
    exact fun n h => absurd (h n (Nat.le_refl n)) (by decide : ¬ unit4.turnDue = true)
  | 1 =>
    have : τ = shortRun := funext fun n => by simpa using (hτ n).symm
    subst this
    exact test_shortRun_fair
  | j + 2 => exact absurd (hτ 0) (by simp)

end Sys2Proof.Tests
end

section
/-!
PROOFS. What every step keeps: the two parameters, the canonical form of the planes, and the
invariant of `Safety.lean`. What a step does to the registry is said once, as the three ways a command writes a slot
(`Slot.Kept`), and what it does to the fault latch and the halt once (`step_faultHalt`).
-/

namespace Sys2Proof.Machine

/-! ### The registry: what every slot keeps -/

/-- `P` holds of a slot at reset and is kept by every way an accepted command writes its slot, in a unit of plane
capacity `cap` (rules R39, R104, R132, R151). -/
structure Slot.Kept (cap : Option Nat) (P : Slot → Prop) : Prop where
  atReset : P Slot.atReset
  started : ∀ {w h : Half} (v : BitVec 8) (qt : QTable), exceedsCapacity cap (planeBytes w h) = false →
    P (startedSlot w h v qt)
  appended : ∀ {sl : Slot} {d : Desc} {qt : QTable} (c : List Coef), P sl → sl.active = true → sl.desc = some d →
    sl.qt = some qt → sl.cursor.toNat + d.rowBytes ≤ sl.buffer.len.toNat → P (appendedSlot idct d qt c sl)
  drained : ∀ {sl : Slot}, P sl → P (drainedSlot sl)

theorem State.forall_slots_setSlot {P : Slot → Prop} {s : State} (hs : ∀ x ∈ s.slots, P x) (idx : Index) {sl : Slot}
    (hsl : P sl) : ∀ x ∈ (s.setSlot idx sl).slots, P x := by
  intro x hx
  rcases State.mem_slots_setSlot hx with rfl | hx
  · exact hsl
  · exact hs x hx

theorem State.forall_slots_resetOf {P : Slot → Prop} (hP : P Slot.atReset) (n : Nat) (cap : Option Nat) :
    ∀ x ∈ (State.resetOf n cap).slots, P x := by
  intro x hx
  obtain rfl := List.eq_of_mem_replicate hx
  exact hP

theorem Slot.Kept.forall_slots_of_accepted {P : Slot → Prop} {i : Instr} {s t : State} {sl : Slot}
    (hk : Slot.Kept s.planeBytesMax P) (hs : ∀ x ∈ s.slots, P x) (hsl : s.slot? i.idx = some sl) (ha : Accepted i s sl t) : ∀ x ∈ t.slots, P x := by
  have hold : P sl := hs sl (State.mem_of_slot?_eq_some hsl)
  cases i with
  | start idx w h v qt =>
    obtain ⟨-, hc, rfl⟩ := ha
    exact State.forall_slots_setSlot hs idx (hk.started v qt hc)
  | appendRow idx c =>
    obtain ⟨d, qt, hact, hd, hq, -, hfit, rfl⟩ := ha
    exact State.forall_slots_setSlot hs idx (hk.appended c hold hact hd hq hfit)
  | getResult idx =>
    obtain rfl := ha
    exact State.forall_slots_setSlot hs idx (hk.drained hold)

theorem Slot.Kept.forall_slots_of_exec {P : Slot → Prop} {i : Instr} {s t : State}
    (hk : Slot.Kept s.planeBytesMax P) (hs : ∀ x ∈ s.slots, P x) (he : exec i s = .next t) : ∀ x ∈ t.slots, P x := by
  rcases exec_cases he with ⟨e, -, rfl⟩ | ⟨sl, hsl, ha⟩
  · exact hs
  · exact hk.forall_slots_of_accepted hs hsl ha

/-- A property of slots that is kept in the sense of `Slot.Kept` is kept by every step. -/
theorem Slot.Kept.forall_slots_of_step {P : Slot → Prop} {s t : State} (hk : Slot.Kept s.planeBytesMax P)
    (hs : ∀ x ∈ s.slots, P x) (h : step s = .next t) : ∀ x ∈ t.slots, P x := by
  rcases step_cases h with ⟨-, rfl⟩ | ⟨-, -, rfl⟩ | ⟨-, -, ⟨-, rfl⟩ | ⟨op, idx, n, -, rfl⟩ | ⟨i, n, -, he⟩⟩
  · exact State.forall_slots_resetOf hk.atReset _ _
  · exact hs
  · exact hs
  · exact hs
  · exact Slot.Kept.forall_slots_of_exec (s := s.consume n) hk hs he

/-! ### The parameters -/

/-- No step changes the number of slots or the plane capacity (log entry 1). -/
theorem step_parameters {s t : State} (h : step s = .next t) :
    t.slots.length = s.slots.length ∧ t.planeBytesMax = s.planeBytesMax := by
  rcases step_cases h with ⟨-, rfl⟩ | ⟨-, -, rfl⟩ | ⟨-, -, ⟨-, rfl⟩ | ⟨op, idx, n, -, rfl⟩ | ⟨i, n, -, he⟩⟩
  · exact ⟨by simp, rfl⟩
  · exact ⟨rfl, rfl⟩
  · exact ⟨rfl, rfl⟩
  · exact ⟨rfl, rfl⟩
  · obtain ⟨-, -, hcap, hlen, -⟩ := exec_frame he
    exact ⟨hlen, hcap⟩

/-! ### The fault latch and the halt -/

/-- A command leaves the fault latch and the halt, or raises an error into both (rules R33, R165). -/
theorem exec_faultHalt {i : Instr} {s t : State} (h : exec i s = .next t) :
    (t.fault = s.fault ∧ t.halted = s.halted) ∨ ∃ e, e ≠ Status.ok ∧ t.fault = e.code ∧ t.halted = true := by
  rcases exec_cases h with ⟨e, he, rfl⟩ | ⟨sl, -, ha⟩
  · exact .inr ⟨e, he, rfl, rfl⟩
  · obtain ⟨sl', ws, rfl⟩ := ha.next_eq
    exact .inl ⟨rfl, rfl⟩

/-- A step clears the fault latch and the halt, leaves both, or raises an error into both (rules R33, R34, R39, R165). -/
theorem step_faultHalt {s t : State} (h : step s = .next t) :
    (t.fault = 0#8 ∧ t.halted = false) ∨ (t.fault = s.fault ∧ t.halted = s.halted) ∨
      ∃ e, e ≠ Status.ok ∧ t.fault = e.code ∧ t.halted = true := by
  rcases step_cases h with ⟨-, rfl⟩ | ⟨-, -, rfl⟩ | ⟨-, -, ⟨-, rfl⟩ | ⟨op, idx, n, -, rfl⟩ | ⟨i, n, -, he⟩⟩
  · exact .inl ⟨rfl, rfl⟩
  · exact .inr (.inl ⟨rfl, rfl⟩)
  · exact .inr (.inl ⟨rfl, rfl⟩)
  · exact .inr (.inr ⟨.illegalCommand, by decide, rfl, rfl⟩)
  · exact .inr (exec_faultHalt (s := s.consume n) he)

/-! ### The invariant of one slot -/

@[simp] theorem exceedsCapacity_zero (cap : Option Nat) : exceedsCapacity cap 0 = false :=
  (exceedsCapacity_eq_false_iff cap 0).2 fun most _ => Nat.zero_le most

theorem Slot.sessionOk_of_inactive {sl : Slot} (ha : sl.active = false) :
    sl.SessionOk ↔ sl.buffer = Plane.empty := by
  simp [Slot.SessionOk, ha]

theorem Slot.sessionOk_of_active {sl : Slot} (ha : sl.active = true) :
    sl.SessionOk ↔ ∃ d qt, sl.desc = some d ∧ sl.qt = some qt ∧ sl.buffer.len.toNat = d.planeBytes ∧
      d.rowBytes ∣ sl.cursor.toNat ∧ sl.cursor.toNat ≤ sl.buffer.len.toNat := by
  simp [Slot.SessionOk, ha]

/-- A slot with no session and an empty buffer satisfies the invariant, whatever its stale fields (rule R30). -/
theorem Slot.Inv.of_empty {sl : Slot} (cap : Option Nat) (hb : sl.buffer = Plane.empty) (ha : sl.active = false)
    (hdq : sl.desc.isSome = sl.qt.isSome) : sl.Inv cap where
  planeWf := by rw [hb]; exact Plane.wf_empty
  fits := by rw [hb]; exact exceedsCapacity_zero cap
  descQt := hdq
  session := (Slot.sessionOk_of_inactive ha).2 hb

theorem Slot.inv_atReset (cap : Option Nat) : Slot.atReset.Inv cap :=
  Slot.Inv.of_empty cap rfl rfl rfl

theorem Slot.inv_drainedSlot {cap : Option Nat} {sl : Slot} (h : sl.Inv cap) : (drainedSlot sl).Inv cap :=
  Slot.Inv.of_empty cap rfl rfl h.descQt

theorem Slot.inv_startedSlot {cap : Option Nat} {w h : Half} (v : BitVec 8) (qt : QTable)
    (hc : exceedsCapacity cap (planeBytes w h) = false) : (startedSlot w h v qt).Inv cap where
  planeWf := Plane.wf_zeros _
  fits := by rw [show (startedSlot w h v qt).buffer = Plane.zeros (planeBytes w h) from rfl, Plane.toNat_len_zeros, hc]
  descQt := rfl
  session := (Slot.sessionOk_of_active rfl).2
    ⟨_, _, rfl, rfl, Plane.toNat_len_zeros w h, Nat.dvd_zero _, Nat.zero_le _⟩

/-- A row moves the cursor by `rowBytes`, so it stays a whole number of rows, and the bounds check keeps it inside the
plane (rules R27, R134, R135). -/
theorem Slot.inv_appendedSlot {cap : Option Nat} {sl : Slot} {d : Desc} {qt : QTable}
    (t : CoefBlock → QTable → SampleBlock) (c : List Coef) (h : sl.Inv cap) (ha : sl.active = true)
    (hd : sl.desc = some d) (hfit : sl.cursor.toNat + d.rowBytes ≤ sl.buffer.len.toNat) :
    (appendedSlot t d qt c sl).Inv cap := by
  have hlen : (appendedSlot t d qt c sl).buffer.len = sl.buffer.len := len_placeRow ..
  have hact : (appendedSlot t d qt c sl).active = true := ha
  refine ⟨wf_placeRow t d qt _ c h.planeWf, by rw [hlen]; exact h.fits, h.descQt, (Slot.sessionOk_of_active hact).2 ?_⟩
  obtain ⟨d', qt', hd', hq', hsize, hdvd, -⟩ := (Slot.sessionOk_of_active ha).1 h.session
  obtain rfl : d' = d := Option.some.inj (hd'.symm.trans hd)
  refine ⟨d', qt', hd', hq', by rw [hlen, hsize], ?_, ?_⟩
  · rw [cursor_appendedSlot hfit]
    exact Nat.dvd_add hdvd (Nat.dvd_refl _)
  · rw [cursor_appendedSlot hfit, hlen]
    exact hfit

/-- The invariant of one slot holds at reset and is kept by every command. -/
theorem Slot.kept_inv (cap : Option Nat) : Slot.Kept cap (Slot.Inv cap) where
  atReset := Slot.inv_atReset cap
  started := Slot.inv_startedSlot
  appended c h ha hd _ hfit := Slot.inv_appendedSlot idct c h ha hd hfit
  drained := Slot.inv_drainedSlot

/-- The canonical form of a plane is kept by itself, with no other part of the invariant (log entry 3). -/
theorem Slot.kept_planeWf (cap : Option Nat) : Slot.Kept cap fun sl => sl.buffer.wf = true where
  atReset := Plane.wf_empty
  started _ _ _ := Plane.wf_zeros _
  appended c h _ _ _ _ := wf_placeRow idct _ _ _ c h
  drained _ := Plane.wf_empty

/-! ### The invariant of the unit -/

theorem State.inv_resetOf {n : Nat} (cap : Option Nat) (h1 : 1 ≤ n) (h2 : n ≤ 256) : (State.resetOf n cap).Inv where
  slotCount := by simp [h1, h2]
  slotInv := State.forall_slots_resetOf (Slot.inv_atReset cap) n cap
  faultLegal := ⟨.ok, rfl⟩
  haltedIffFault := by simp

/-- `MAX_COMPONENTS` is in its range, whatever its open value (rule R8). -/
theorem maxComponents_range : 1 ≤ Config.maxComponents ∧ Config.maxComponents ≤ 256 :=
  ⟨Nat.le_add_left 1 _, Config.spareSlots.isLt⟩

theorem State.inv_of_step {s t : State} (hi : s.Inv) (h : step s = .next t) : t.Inv := by
  obtain ⟨hlen, hcap⟩ := step_parameters h
  have hslots : ∀ sl ∈ t.slots, sl.Inv t.planeBytesMax := by
    rw [hcap]
    exact (Slot.kept_inv s.planeBytesMax).forall_slots_of_step hi.slotInv h
  have hlatch : (∃ e : Status, t.fault = e.code) ∧ (t.halted = true ↔ t.fault ≠ 0#8) := by
    rcases step_faultHalt h with ⟨hf, hh⟩ | ⟨hf, hh⟩ | ⟨e, he, hf, hh⟩
    · exact ⟨⟨.ok, hf⟩, by simp [hf, hh]⟩
    · rw [hf, hh]
      exact ⟨hi.faultLegal, hi.haltedIffFault⟩
    · exact ⟨⟨e, hf⟩, by simp [hf, hh, code_eq_zero_iff, he]⟩
  exact ⟨by rw [hlen]; exact hi.slotCount, hslots, hlatch.1, hlatch.2⟩

/-! ### The obligations -/

/-- Settles O40: the slots by `Slot.kept_inv`, the parameters by `step_parameters`, the latch and the halt by
`step_faultHalt`. -/
theorem stepKeepsTheInvariant : Obligations.StepKeepsTheInvariant :=
  fun _ _ hi h => State.inv_of_step hi h

/-- Settles O41: every way a slot is written leaves its plane canonical (`Slot.kept_planeWf`). -/
theorem stepKeepsPlanesCanonical : Obligations.StepKeepsPlanesCanonical := by
  intro s t hs h
  rw [Memory.wf_iff] at hs ⊢
  exact (Slot.kept_planeWf s.planeBytesMax).forall_slots_of_step hs h

/-- Settles O15, from the frame of commands and from reset, which takes the parameters over. -/
theorem parametersNeverChange : Obligations.ParametersNeverChange :=
  fun _ _ h => step_parameters h

/-- Settles O43: a slot with a session has a plane of its descriptor's size, one without has none. -/
theorem planeSizeIsZeroOrTheDescriptors : Obligations.PlaneSizeIsZeroOrTheDescriptors := by
  intro s sl hi hsl
  have hsess : sl.SessionOk := (hi.slotInv sl hsl).session
  cases ha : sl.active with
  | false =>
    have hb : sl.buffer = Plane.empty := (Slot.sessionOk_of_inactive ha).1 hsess
    have hlen : sl.buffer.len = 0#40 := by rw [hb]; rfl
    exact ⟨by simp [hlen], .inl hlen⟩
  | true =>
    obtain ⟨d, -, hd, -, hsize, -, -⟩ := (Slot.sessionOk_of_active ha).1 hsess
    exact ⟨by rw [hsize]; exact Nat.dvd_mul_left 64 _, .inr ⟨d, hd, hsize⟩⟩

/-- Settles O39, by `State.inv_resetOf` at the open parameters and at any others. -/
theorem resetSatisfiesTheInvariant : Obligations.ResetSatisfiesTheInvariant :=
  have ⟨h1, h2⟩ := maxComponents_range
  ⟨State.inv_resetOf _ h1 h2, fun _ cap h1 h2 => State.inv_resetOf cap h1 h2⟩

end Sys2Proof.Machine
end

section
/-!
PROOFS. The state's statements: what a decoded command depends on, the step case by case, what each command leaves
unchanged, what it can see of the registry, how a step and the host's side of the ports commute, and a session. The
proofs go through `exec_cases` and `exec_congr` (`Laws/Exec.lean`) and `step_cases` (`Laws/Step.lean`).
-/

namespace Sys2Proof

/-! ### The decoder, command by command -/

theorem decode_getResult {w0 : Word} (hr : fieldRsv0 w0 = 0#16) (ho : fieldOp w0 = opGetResult) (rest : List Word) :
    decode (w0 :: rest) = .command (.getResult (fieldIdx w0)) 1 := by
  simp [decode, hr, ho, legalOp]

theorem decode_start {w0 : Word} (hr : fieldRsv0 w0 = 0#16) (ho : fieldOp w0 = opStart) (rest : List Word) :
    decode (w0 :: rest) = decodeStart (fieldIdx w0) rest := by
  simp [decode, hr, ho, legalOp, opStart, opGetResult]

theorem decode_appendRow {w0 : Word} (hr : fieldRsv0 w0 = 0#16) (ho : fieldOp w0 = opAppendRow) (rest : List Word) :
    decode (w0 :: rest) = decodeAppendRow (fieldIdx w0) rest := by
  simp [decode, hr, ho, legalOp, opStart, opGetResult, opAppendRow]

/-- The decoder reads back an encoded command, whatever words follow it (rules R71 to R80). -/
theorem decode_encode_append {i : Instr} (hwf : i.wf = true) (more : List Word) :
    decode (encode i ++ more) = .command i i.words := by
  cases i with
  | getResult idx => simp [encode, decode_getResult, Instr.words]
  | start idx w h v qt =>
    simp [encode, decode_start, decodeStart, Instr.words]
  | appendRow idx c =>
    have hn : (BitVec.ofNat 32 c.length).toNat = c.length :=
      Nat.mod_eq_of_lt (by simpa [Instr.wf] using hwf)
    simp [encode, decode_appendRow, decodeAppendRow, Instr.words, hn]

/-! ### What a decoded command takes -/

/-- The words that a decoded command took are enough for the decoder to decide (rules R79, R80). -/
theorem decode_take_ne_incomplete {ws : List Word} {i : Instr} {n : Nat} (h : decode ws = .command i n) :
    decode (ws.take n) ≠ .incomplete := by
  obtain ⟨w0, rest, rfl, hr, ⟨ho, -, rfl⟩ | ⟨ho, w1, w2, table, rfl, hl, h2, -, rfl⟩ |
    ⟨ho, w1, payload, rfl, hl, -, rfl⟩⟩ := decode_command_cases h
  · simp [decode_getResult hr ho]
  · simp [decode_start hr ho, decodeStart, h2, hl]
  · have htake : (w0 :: w1 :: payload).take (2 + coefWords w1.toNat) =
        w0 :: w1 :: payload.take (coefWords w1.toNat) := by
      rw [Nat.add_comm, List.take_succ_cons, List.take_succ_cons]
    simp [htake, decode_appendRow hr ho, decodeAppendRow, hl]

theorem decode_take {ws : List Word} {i : Instr} {n : Nat} (h : decode ws = .command i n) :
    decode (ws.take n) = .command i n := by
  rw [← decode_append_of (decode_take_ne_incomplete h) (ws.drop n), List.take_append_drop, h]

theorem wf_of_decode {ws : List Word} {i : Instr} {n : Nat} (h : decode ws = .command i n) :
    i.wf = true ∧ n = i.words := by
  obtain ⟨w0, rest, -, -, ⟨-, rfl, rfl⟩ | ⟨-, w1, w2, table, -, -, -, rfl, rfl⟩ |
    ⟨-, w1, payload, -, hl, rfl, rfl⟩⟩ := decode_command_cases h
  · exact ⟨rfl, rfl⟩
  · exact ⟨rfl, rfl⟩
  · simp [Instr.wf, Instr.words, length_unpackCoefs hl, w1.isLt]

theorem consumed_le_of_decode {ws : List Word} {i : Instr} {n : Nat} (h : decode ws = .command i n) :
    n ≤ ws.length := by
  simpa [h, Decoded.consumed] using (decode_consumed ws).2

namespace Machine

/-! ### The step, case by case -/

theorem step_hostReset (s : State) : step s.hostReset = .next s.takeReset := rfl

theorem step_halted {s : State} (hr : s.resetIn = false) (hh : s.halted = true) : step s = .next s := by
  simp [step, hr, hh]

theorem step_incomplete {s : State} (hr : s.resetIn = false) (hd : decode s.cmdPort = .incomplete) :
    step s = .next s := by
  simp [step, hr, hd]

theorem step_illegal {s : State} {op : BitVec 8} {idx : Index} {n : Nat} (hr : s.resetIn = false)
    (hh : s.halted = false) (hd : decode s.cmdPort = .illegal op idx n) :
    step s = .next (s.takeIllegal op idx n) := by
  simp [step, hr, hh, hd]

theorem step_command {s : State} {i : Instr} {n : Nat} (hr : s.resetIn = false) (hh : s.halted = false)
    (hd : decode s.cmdPort = .command i n) : step s = exec i (s.consume n) := by
  simp [step, hr, hh, hd]

theorem stepN_of_fixed {s : State} (h : step s = .next s) (n : Nat) : stepN n s = .next s := by
  induction n with
  | zero => rfl
  | succ n ih => rw [stepN_succ_next n h, ih]

/-! ### Frames -/

/-- A command writes no slot but its own (rule R28). -/
theorem exec_slots_of_ne {i : Instr} {s t : State} (h : exec i s = .next t) {j : Nat} (hj : j ≠ i.idx.toNat) :
    t.slots[j]? = s.slots[j]? := by
  rcases exec_cases h with ⟨e, -, rfl⟩ | ⟨sl, -, ha⟩
  · rfl
  · obtain ⟨sl', ws, rfl⟩ := ha.next_eq
    exact List.getElem?_set_ne hj.symm

/-- A command leaves the fault latch and the halt, or raises an error that is all it does (rules R33, R165, R166). -/
theorem exec_latch_or_raise {i : Instr} {s t : State} (h : exec i s = .next t) :
    (t.fault = s.fault ∧ t.halted = s.halted) ∨ ∃ e, e ≠ Status.ok ∧ t = s.raise e i.op i.idx := by
  rcases exec_cases h with ⟨e, he, ht⟩ | ⟨sl, -, ha⟩
  · exact .inr ⟨e, he, ht⟩
  · obtain ⟨sl', ws, rfl⟩ := ha.next_eq
    exact .inl ⟨rfl, rfl⟩

/-- The frame that all three commands share (rules R28, R29, R166). -/
theorem exec_commonFrame {i : Instr} {s t : State} (h : exec i s = .next t) :
    t.slots.length = s.slots.length ∧ (∀ j : Nat, j ≠ i.idx.toNat → t.slots[j]? = s.slots[j]?) ∧
      t.cmdPort = s.cmdPort ∧ t.resetIn = s.resetIn ∧ t.planeBytesMax = s.planeBytesMax ∧
      (t.fault = s.fault ∧ t.halted = s.halted ∨ t.slots = s.slots) := by
  obtain ⟨hcmd, hreset, hcap, hlen, -⟩ := exec_frame h
  have hlatch : t.fault = s.fault ∧ t.halted = s.halted ∨ t.slots = s.slots :=
    (exec_latch_or_raise h).imp_right fun ⟨e, _, ht⟩ => by rw [ht, State.raise_slots]
  exact ⟨hlen, fun j hj => exec_slots_of_ne h hj, hcmd, hreset, hcap, hlatch⟩

/-- What APPEND_ROW leaves of its own slot: all but the cursor and the bytes its block writes go to (rules R60,
R136). -/
theorem appendRow_slotFrame {idx : Index} {c : List Coef} {s t : State} {sl : Slot}
    (h : exec (.appendRow idx c) s = .next t) (hs : s.slot? idx = some sl) :
    ∃ sl', t.slot? idx = some sl' ∧ sl'.desc = sl.desc ∧ sl'.qt = sl.qt ∧ sl'.active = sl.active ∧
      sl'.buffer.len = sl.buffer.len ∧
      ∀ d, sl.desc = some d → ∀ o,
        (∀ b, b < d.blockCount → ∀ k : Fin 64, sampleOffset d.gridWidth.toNat sl.cursor.toNat b k ≠ o) →
        sl'.buffer.read o = sl.buffer.read o := by
  rcases exec_cases h with ⟨e, -, rfl⟩ | ⟨sl₀, hs₀, d, qt, ha, hd, hq, -, -, rfl⟩
  · exact ⟨sl, hs, rfl, rfl, rfl, rfl, fun _ _ _ _ => rfl⟩
  · obtain rfl : sl₀ = sl := Option.some.inj (hs₀.symm.trans hs)
    refine ⟨appendedSlot idct d qt c sl₀, State.slot?_setSlot_self hs _, rfl, rfl, rfl, len_placeRow .., ?_⟩
    intro d' hd' o hmiss
    obtain rfl : d' = d := Option.some.inj (hd'.symm.trans hd)
    exact read_placeBlocks_of_ne _ _ _ _ _ fun b hb k => hmiss b (List.mem_range.1 hb) k

/-- GET_RESULT leaves its slot drained (rule R151). -/
theorem getResult_slotFrame {idx : Index} {s t : State} {sl : Slot}
    (h : exec (.getResult idx) s = .next t) (hs : s.slot? idx = some sl) :
    t.slot? idx = some (drainedSlot sl) := by
  rw [exec_getResult_ok hs, Host.Outcome.next.injEq] at h
  rw [← h]
  exact State.slot?_setSlot_self hs _

/-! ### APPEND_ROW without a session -/

theorem exec_appendRow_stops {idx : Index} {s : State} {sl : Slot} (c : List Coef) (hs : s.slot? idx = some sl)
    (ha : sl.active = true) (hlack : sl.desc = none ∨ sl.qt = none) :
    exec (.appendRow idx c) s = .fault .activeWithoutSession := by
  rcases hlack with hd | hq
  · simp [exec, execAppendRow, appendRowWith, hs, ha, hd]
  · simp [exec, execAppendRow, appendRowWith, hs, ha, hq]

/-- Under the invariant an active slot has its descriptor and its table (rules R25, R29). -/
theorem Slot.Inv.not_lacking {cap : Option Nat} {sl : Slot} (h : sl.Inv cap) (ha : sl.active = true) :
    ¬ (sl.desc = none ∨ sl.qt = none) := by
  obtain ⟨d, qt, hd, hq, -⟩ := (Slot.sessionOk_of_active ha).1 h.session
  simp [hd, hq]

/-! ### The response -/

/-- An accepted command's response begins with its OK status word, and only GET_RESULT's has words behind it (rules R81,
R82). -/
theorem Accepted.response_eq {i : Instr} {s t : State} {sl : Slot} (h : Accepted i s sl t) :
    ∃ sl' ws, t = (s.setSlot i.idx sl').respond (statusWord .ok i.op i.idx :: ws) ∧
      (ws = [] ∨ ∃ idx, i = .getResult idx) := by
  cases i with
  | start idx w hh v qt => exact ⟨_, [], h.2.2, .inl rfl⟩
  | appendRow idx c =>
    obtain ⟨d, qt, -, -, -, -, -, ht⟩ := h
    exact ⟨_, [], ht, .inl rfl⟩
  | getResult idx => exact ⟨_, _, h, .inr ⟨idx, rfl⟩⟩

/-! ### The host's side of the ports -/

/-- A command does not see the command port: words written behind it stay there. -/
theorem exec_hostWrite {i : Instr} {s t : State} (h : exec i s = .next t) (ws : List Word) :
    exec i (s.hostWrite ws) = .next (t.hostWrite ws) := by
  rcases exec_congr (s := s) (s' := s.hostWrite ws) rfl rfl h with ⟨e, -, rfl, h'⟩ | ⟨sl, sl', rs, -, rfl, h', -⟩
  · exact h'
  · exact h'

theorem State.consume_hostWrite {s : State} {n : Nat} (h : n ≤ s.cmdPort.length) (ws : List Word) :
    (s.hostWrite ws).consume n = (s.consume n).hostWrite ws := by
  simp [State.consume, State.hostWrite, List.drop_append_of_le_length h]

theorem State.hostWrite_nil (s : State) : s.hostWrite [] = s := by simp [State.hostWrite]

/-- One step takes the first command of the port, and leaves the words behind it (rules R36, R40). -/
theorem step_hostWrite_encode {i : Instr} {s t : State} (hwf : i.wf = true) (hr : s.resetIn = false)
    (hh : s.halted = false) (hp : s.cmdPort = []) (h : exec i s = .next t) (more : List Word) :
    step (s.hostWrite (encode i ++ more)) = .next (t.hostWrite more) := by
  have hd : decode (s.hostWrite (encode i ++ more)).cmdPort = .command i i.words := by
    rw [State.hostWrite_cmdPort, hp, List.nil_append, decode_encode_append hwf]
  have hc : (s.hostWrite (encode i ++ more)).consume i.words = s.hostWrite more := by
    simp [State.consume, State.hostWrite, hp, ← length_encode]
  rw [step_command (s := s.hostWrite _) hr hh hd, hc]
  exact exec_hostWrite h more

/-- Words written behind a decided command, or to a halted unit, change nothing in the step (rules R40, R170). -/
theorem step_hostWrite {s t : State} (hr : s.resetIn = false) (h : step s = .next t)
    (hd : s.halted = true ∨ decode s.cmdPort ≠ .incomplete) (ws : List Word) :
    step (s.hostWrite ws) = .next (t.hostWrite ws) := by
  rcases step_cases h with ⟨hr', -⟩ | ⟨-, hh, rfl⟩ | ⟨-, hh, hcase⟩
  · exact absurd (hr'.symm.trans hr) (by decide)
  · exact step_halted hr hh
  · have hdec : decode s.cmdPort ≠ .incomplete := hd.resolve_left (by simp [hh])
    have hd' : decode (s.hostWrite ws).cmdPort = decode s.cmdPort := decode_append_of hdec ws
    rcases hcase with ⟨hinc, -⟩ | ⟨op, idx, n, hill, rfl⟩ | ⟨i, n, hcom, he⟩
    · exact absurd hinc hdec
    · have hn : n ≤ s.cmdPort.length := by
        simpa [hill, Decoded.consumed] using (decode_consumed s.cmdPort).2
      rw [step_illegal (s := s.hostWrite ws) hr hh (hd'.trans hill), State.takeIllegal, State.consume_hostWrite hn]
      rfl
    · rw [step_command (s := s.hostWrite ws) hr hh (hd'.trans hcom),
        State.consume_hostWrite (consumed_le_of_decode hcom)]
      exact exec_hostWrite he ws

/-- `s` with one more response word that the host has not yet read, `w`, before the others. -/
def State.unread (s : State) (w : Word) : State := { s with respPort := w :: s.respPort }

theorem State.hostRead_unread (s : State) (w : Word) : (s.unread w).hostRead = some (w, s) := rfl

theorem State.eq_unread_of_hostRead {s s' : State} {w : Word} (h : s.hostRead = some (w, s')) : s = s'.unread w := by
  obtain ⟨hresp, hs'⟩ := State.hostRead_eq h
  rw [hs', State.unread, ← hresp]

/-- A command does not see the response port: it only adds words to it. -/
theorem exec_unread {i : Instr} {s t : State} {w : Word} (h : exec i (s.unread w) = .next t) :
    ∃ u, t = u.unread w ∧ exec i s = .next u := by
  rcases exec_congr (s := s.unread w) (s' := s) rfl rfl h with ⟨e, -, rfl, h'⟩ | ⟨sl, sl', rs, -, rfl, h', -⟩
  · exact ⟨_, rfl, h'⟩
  · exact ⟨_, rfl, h'⟩

/-- A step that is not a reset adds words to the response port, whatever words of it the host has read (rule R41). -/
theorem step_unread {s t : State} {w : Word} (hr : s.resetIn = false) (h : step (s.unread w) = .next t) :
    ∃ u, t = u.unread w ∧ step s = .next u := by
  rcases step_cases h with ⟨hr', -⟩ | ⟨-, hh, rfl⟩ | ⟨-, hh, ⟨hd, rfl⟩ | ⟨op, idx, n, hd, rfl⟩ | ⟨i, n, hd, he⟩⟩
  · exact absurd (hr'.symm.trans hr) (by decide)
  · exact ⟨s, rfl, step_halted hr hh⟩
  · exact ⟨s, rfl, step_incomplete hr hd⟩
  · exact ⟨s.takeIllegal op idx n, rfl, step_illegal hr hh hd⟩
  · rw [step_command hr hh hd]
    exact exec_unread (s := s.consume n) he

/-! ### Stale fields -/

theorem exec_start_of_slot {idx : Index} {s : State} {sl : Slot} (hs : s.slot? idx = some sl) (w h : Half)
    (v : BitVec 8) (qt : QTable) :
    exec (.start idx w h v qt) s = .next (
      if sl.buffer.len ≠ 0#40 then s.raise .slotBusy opStart idx
      else if exceedsCapacity s.planeBytesMax (planeBytes w h) then s.raise .capacityExceeded opStart idx
      else (s.setSlot idx (startedSlot w h v qt)).respond [statusWord .ok opStart idx]) := by
  simp only [exec, execStart, startNext, hs]

theorem exec_appendRow_inactive {idx : Index} {s : State} {sl : Slot} (c : List Coef) (hs : s.slot? idx = some sl)
    (ha : sl.active = false) : exec (.appendRow idx c) s = .next (s.raise .notStarted opAppendRow idx) := by
  simp only [exec, execAppendRow, appendRowWith, hs, ha, if_true]

/-- The two states agree but for the command port, the reset input, and the cursor, descriptor and table of slot `j`
(rule R30). -/
structure State.StaleEquiv (j : Index) (s s' : State) : Prop where
  respPort : s'.respPort = s.respPort
  fault : s'.fault = s.fault
  halted : s'.halted = s.halted
  planeBytesMax : s'.planeBytesMax = s.planeBytesMax
  others : ∀ k : Nat, k ≠ j.toNat → s'.slots[k]? = s.slots[k]?
  slot : ∃ sl sl', s.slot? j = some sl ∧ s'.slot? j = some sl' ∧ sl'.buffer = sl.buffer ∧ sl'.active = sl.active

section StaleEquiv

variable {j : Index} {s s' : State} (he : s.StaleEquiv j s')
include he

theorem State.StaleEquiv.raise (e : Status) (op : BitVec 8) (idx : Index) :
    (s.raise e op idx).StaleEquiv j (s'.raise e op idx) where
  respPort := congrArg (· ++ [statusWord e op idx]) he.respPort
  fault := rfl
  halted := rfl
  planeBytesMax := he.planeBytesMax
  others := he.others
  slot := he.slot

theorem State.StaleEquiv.respond (ws : List Word) : (s.respond ws).StaleEquiv j (s'.respond ws) where
  respPort := congrArg (· ++ ws) he.respPort
  fault := he.fault
  halted := he.halted
  planeBytesMax := he.planeBytesMax
  others := he.others
  slot := he.slot

theorem State.StaleEquiv.setSlot_of_ne {idx : Index} (hne : idx ≠ j) (x : Slot) :
    (s.setSlot idx x).StaleEquiv j (s'.setSlot idx x) where
  respPort := he.respPort
  fault := he.fault
  halted := he.halted
  planeBytesMax := he.planeBytesMax
  others k hk := by simp [List.getElem?_set', he.others k hk]
  slot := by
    rw [State.slot?_setSlot_of_ne s hne.symm, State.slot?_setSlot_of_ne s' hne.symm]
    exact he.slot

theorem State.StaleEquiv.setSlot_self {x x' : Slot} (hb : x'.buffer = x.buffer) (ha : x'.active = x.active) :
    (s.setSlot j x).StaleEquiv j (s'.setSlot j x') where
  respPort := he.respPort
  fault := he.fault
  halted := he.halted
  planeBytesMax := he.planeBytesMax
  others k hk := by simp [hk.symm, he.others k hk]
  slot := by
    obtain ⟨sl, sl', hs, hs', -⟩ := he.slot
    exact ⟨x, x', State.slot?_setSlot_self hs x, State.slot?_setSlot_self hs' x', hb, ha⟩

/-- A command on another slot does the same on both sides, since it does not see slot `j`. -/
theorem State.StaleEquiv.exec_of_ne {i : Instr} {t : State} (hne : i.idx ≠ j) (h : exec i s = .next t) :
    ∃ t', exec i s' = .next t' ∧ t.StaleEquiv j t' := by
  have hslot : s.slot? i.idx = s'.slot? i.idx := (he.others _ fun e => hne (BitVec.eq_of_toNat_eq e)).symm
  rcases exec_congr he.planeBytesMax.symm hslot h with ⟨e, -, rfl, h'⟩ | ⟨sl, x, ws, -, rfl, h', -⟩
  · exact ⟨_, h', he.raise e i.op i.idx⟩
  · exact ⟨_, h', (he.setSlot_of_ne hne x).respond ws⟩

/-- A command on the inactive slot `j` itself reads no stale field: START and GET_RESULT look at the buffer only, and
APPEND_ROW fails with NotStarted. -/
theorem State.StaleEquiv.exec_self {i : Instr} {t : State} {sl : Slot} (hj : i.idx = j) (hs : s.slot? j = some sl)
    (ha : sl.active = false) (h : exec i s = .next t) : ∃ t', exec i s' = .next t' ∧ t.StaleEquiv j t' := by
  obtain ⟨sl₀, sl', hs₀, hs', hb', ha'⟩ := he.slot
  obtain rfl : sl₀ = sl := Option.some.inj (hs₀.symm.trans hs)
  cases i with
  | start idx w hh v qt =>
    obtain rfl : idx = j := hj
    rw [exec_start_of_slot hs, Host.Outcome.next.injEq] at h
    subst h
    refine ⟨_, exec_start_of_slot hs' w hh v qt, ?_⟩
    rw [hb', he.planeBytesMax]
    split_ifs
    · exact he.raise ..
    · exact he.raise ..
    · exact (he.setSlot_self rfl rfl).respond _
  | appendRow idx c =>
    obtain rfl : idx = j := hj
    rw [exec_appendRow_inactive c hs ha, Host.Outcome.next.injEq] at h
    subst h
    exact ⟨_, exec_appendRow_inactive c hs' (ha'.trans ha), he.raise ..⟩
  | getResult idx =>
    obtain rfl : idx = j := hj
    rw [exec_getResult_ok hs, Host.Outcome.next.injEq] at h
    subst h
    refine ⟨_, exec_getResult_ok hs', ?_⟩
    rw [hb']
    exact (he.setSlot_self (x := drainedSlot sl₀) (x' := drainedSlot sl') rfl rfl).respond _

/-- A command does the same on both sides while slot `j` is inactive, and leaves them alike again. -/
theorem State.StaleEquiv.exec_next {i : Instr} {t : State} {sl : Slot} (hs : s.slot? j = some sl)
    (ha : sl.active = false) (h : exec i s = .next t) : ∃ t', exec i s' = .next t' ∧ t.StaleEquiv j t' := by
  by_cases hj : i.idx = j
  · exact he.exec_self hj hs ha h
  · exact he.exec_of_ne hj h

end StaleEquiv

/-- Any change of slot `j` that keeps its buffer and `active`. -/
theorem State.staleEquiv_set {j : Index} {s : State} {sl sl' : Slot} (hs : s.slot? j = some sl)
    (hb : sl'.buffer = sl.buffer) (ha : sl'.active = sl.active) : s.StaleEquiv j (s.setSlot j sl') where
  respPort := rfl
  fault := rfl
  halted := rfl
  planeBytesMax := rfl
  others _ hk := List.getElem?_set_ne hk.symm
  slot := ⟨sl, sl', hs, State.slot?_setSlot_self hs sl', hb, ha⟩

/-! ### A session -/

/-- Byte `o` of the plane of a session that has had `rows`: the sample of its row, block and position, and 0 past the
rows (rules R107, R137). -/
def sessionByte (d : Desc) (qt : QTable) (rows : List (List Coef)) (o : Nat) : Byte :=
  if o < rows.length * d.rowBytes then
    (idct (blockCoefs (rows.getD (o / d.rowBytes) []) (blockAt d.gridWidth.toNat (o % d.rowBytes))) qt)[
      positionAt d.gridWidth.toNat (o % d.rowBytes)]
  else 0#8

theorem length_append_row_mul (rows : List (List Coef)) (c : List Coef) (n : Nat) :
    (rows ++ [c]).length * n = rows.length * n + n := by
  rw [List.length_append, List.length_singleton, Nat.succ_mul]

theorem sessionByte_of_ge {d : Desc} {rows : List (List Coef)} {o : Nat} (qt : QTable)
    (h : rows.length * d.rowBytes ≤ o) : sessionByte d qt rows o = 0#8 :=
  if_neg (Nat.not_lt.2 h)

/-- A row more changes nothing before it. -/
theorem sessionByte_append_of_lt {d : Desc} {rows : List (List Coef)} {o : Nat} (qt : QTable) (c : List Coef)
    (h : o < rows.length * d.rowBytes) : sessionByte d qt (rows ++ [c]) o = sessionByte d qt rows o := by
  have hrow : o / d.rowBytes < rows.length := Nat.div_lt_of_lt_mul (by rwa [Nat.mul_comm])
  have hlt : o < (rows ++ [c]).length * d.rowBytes := by
    rw [length_append_row_mul]
    exact Nat.lt_add_right _ h
  rw [sessionByte, sessionByte, if_pos h, if_pos hlt, List.getD_append _ _ _ _ hrow]

/-- Inside the last row its samples stand. -/
theorem sessionByte_append_last {d : Desc} {rel : Nat} (qt : QTable) (rows : List (List Coef)) (c : List Coef)
    (h : rel < d.rowBytes) :
    sessionByte d qt (rows ++ [c]) (rows.length * d.rowBytes + rel) =
      (rowBlock idct c qt (blockAt d.gridWidth.toNat rel))[positionAt d.gridWidth.toNat rel] := by
  have hdiv : (rows.length * d.rowBytes + rel) / d.rowBytes = rows.length := by
    rw [Nat.mul_comm, Nat.mul_add_div (by omega), Nat.div_eq_of_lt h, Nat.add_zero]
  have hmod : (rows.length * d.rowBytes + rel) % d.rowBytes = rel := by
    rw [Nat.mul_comm, Nat.mul_add_mod, Nat.mod_eq_of_lt h]
  have hlt : rows.length * d.rowBytes + rel < (rows ++ [c]).length * d.rowBytes := by
    rw [length_append_row_mul]
    omega
  have hget : (rows ++ [c]).getD rows.length [] = c := by simp
  rw [sessionByte, if_pos hlt]
  simp only [hdiv, hmod, hget, rowBlock]

/-- The slot is in a session of descriptor `d` and table `qt` that has had `rows`, and its plane is known (rules R27,
R107, R137). -/
structure Slot.HoldsRows (d : Desc) (qt : QTable) (rows : List (List Coef)) (sl : Slot) : Prop where
  active : sl.active = true
  hasDesc : sl.desc = some d
  hasTable : sl.qt = some qt
  cursor : sl.cursor.toNat = rows.length * d.rowBytes
  len : sl.buffer.len.toNat = d.planeBytes
  wf : sl.buffer.wf = true
  read : ∀ o, sl.buffer.read o = sessionByte d qt rows o

theorem Slot.holdsRows_startedSlot (d : Desc) (qt : QTable) :
    (startedSlot d.gridWidth d.gridHeight d.verticalSamplingFactor qt).HoldsRows d qt [] where
  active := rfl
  hasDesc := rfl
  hasTable := rfl
  cursor := by simp [startedSlot]
  len := Plane.toNat_len_zeros _ _
  wf := Plane.wf_zeros _
  read o := (sessionByte_of_ge qt (by simp)).symm

theorem Slot.HoldsRows.fits {d : Desc} {qt : QTable} {rows : List (List Coef)} {sl : Slot}
    (h : sl.HoldsRows d qt rows) {c : List Coef} (hfit : (rows ++ [c]).length * d.rowBytes ≤ d.planeBytes) :
    sl.cursor.toNat + d.rowBytes ≤ sl.buffer.len.toNat := by
  rwa [h.cursor, h.len, ← length_append_row_mul rows c]

/-- A row that fits is placed behind the ones before it (rules R134 to R137). -/
theorem Slot.HoldsRows.appendedSlot {d : Desc} {qt : QTable} {rows : List (List Coef)} {sl : Slot}
    (h : sl.HoldsRows d qt rows) {c : List Coef} (hfit : (rows ++ [c]).length * d.rowBytes ≤ d.planeBytes) :
    (appendedSlot idct d qt c sl).HoldsRows d qt (rows ++ [c]) where
  active := h.active
  hasDesc := h.hasDesc
  hasTable := h.hasTable
  cursor := by
    rw [cursor_appendedSlot (h.fits hfit), h.cursor, length_append_row_mul]
  len := (congrArg BitVec.toNat (len_placeRow ..)).trans h.len
  wf := wf_placeRow _ _ _ _ _ h.wf
  read o := by
    change (placeRow idct d qt sl.cursor.toNat c sl.buffer).read o = sessionByte d qt (rows ++ [c]) o
    rcases Nat.lt_or_ge o (rows.length * d.rowBytes) with hlt | hge
    · rw [read_placeRow_outside _ _ _ _ _ _ (.inl (h.cursor ▸ hlt)), h.read, sessionByte_append_of_lt qt c hlt]
    · obtain ⟨rel, rfl⟩ := Nat.exists_eq_add_of_le hge
      rcases Nat.lt_or_ge rel d.rowBytes with hin | hout
      · rw [← h.cursor, read_placeRow_inside _ _ _ h.wf (h.fits hfit) hin, h.cursor,
          sessionByte_append_last qt rows c hin]
      · have hend : (rows ++ [c]).length * d.rowBytes ≤ rows.length * d.rowBytes + rel := by
          rw [length_append_row_mul]
          omega
        rw [read_placeRow_outside _ _ _ _ _ _ (.inr (by rw [h.cursor]; omega)), h.read, sessionByte_of_ge qt hge,
          sessionByte_of_ge qt hend]

theorem sessionCommands_append (idx : Index) (d : Desc) (qt : QTable) (rows : List (List Coef)) (c : List Coef) :
    sessionCommands idx d qt (rows ++ [c]) = sessionCommands idx d qt rows ++ [.appendRow idx c] := by
  simp [sessionCommands]

/-- A session on a slot with an empty buffer: every command succeeds with one OK word, and the slot holds the rows
(rules R104, R135, R137). -/
theorem execAll_sessionCommands {idx : Index} {d : Desc} {qt : QTable} {rows : List (List Coef)} {s : State}
    {sl : Slot} (hh : s.halted = false) (hs : s.slot? idx = some sl) (hempty : sl.buffer.len = 0#40)
    (hcap : exceedsCapacity s.planeBytesMax d.planeBytes = false)
    (hrows : ∀ c ∈ rows, c.length = d.rowBytes) (hfit : rows.length * d.rowBytes ≤ d.planeBytes) :
    ∃ t sl', execAll (sessionCommands idx d qt rows) s = .next t ∧ t.halted = false ∧ t.slot? idx = some sl' ∧
      sl'.HoldsRows d qt rows ∧
      t.respPort = s.respPort ++ statusWord .ok opStart idx ::
        List.replicate rows.length (statusWord .ok opAppendRow idx) := by
  induction rows using List.reverseRecOn with
  | nil =>
    exact ⟨_, _, execAll_cons hh (exec_start_ok hs hempty hcap), hh, State.slot?_setSlot_self hs _,
      Slot.holdsRows_startedSlot d qt, rfl⟩
  | append_singleton rows c ih =>
    have hle : rows.length * d.rowBytes ≤ d.planeBytes :=
      (Nat.mul_le_mul_right _ (by simp)).trans hfit
    obtain ⟨t, sl', ht, hht, hst, hsl', hresp⟩ := ih (fun c' hc' => hrows c' (List.mem_append_left _ hc')) hle
    have hc : c.length = d.rowBytes := hrows c (by simp)
    have hex := exec_appendRow_ok hst hsl'.active hsl'.hasDesc hsl'.hasTable hc (hsl'.fits hfit)
    refine ⟨(t.setSlot idx (appendedSlot idct d qt c sl')).respond [statusWord .ok opAppendRow idx], _, ?_, hht,
      State.slot?_setSlot_self hst _, hsl'.appendedSlot hfit, ?_⟩
    · rw [sessionCommands_append, execAll_append ht hht, execAll_cons hht hex, execAll_nil]
    · simp [hresp, List.replicate_succ']

/-! ### The obligations -/

/-- Settles O3: the words it took decode to the command by themselves (`decode_take`), and words behind them change
nothing. -/
theorem decodeTakesItsOwnWordsOnly : Obligations.DecodeTakesItsOwnWordsOnly := by
  intro ws i n h
  obtain ⟨hwf, hn⟩ := wf_of_decode h
  refine ⟨hwf, hn, consumed_le_of_decode h, fun ws' htake => ?_⟩
  have hd : decode (ws'.take n) = .command i n := by rw [htake, decode_take h]
  rw [← List.take_append_drop n ws', decode_append_of (by simp [hd]), hd]

/-- Settles O11: a halted unit's step answers the same state. -/
theorem haltedUnitIgnoresThePort : Obligations.HaltedUnitIgnoresThePort :=
  fun s ws n hh hr => stepN_of_fixed (step_halted (s := s.hostWrite ws) hr hh) n

/-- Settles O12: over what a step can do; a command changes the latch only by raising an error. -/
theorem faultLatchChangesOnlyByResetOrFirstError : Obligations.FaultLatchChangesOnlyByResetOrFirstError := by
  intro s t h hchange
  rcases step_cases h with ⟨hr, rfl⟩ | ⟨-, -, rfl⟩ | ⟨hr, hh, ⟨-, rfl⟩ | ⟨op, idx, n, -, rfl⟩ | ⟨i, n, -, he⟩⟩
  · exact .inl ⟨hr, rfl, rfl⟩
  · simp at hchange
  · simp at hchange
  · exact .inr ⟨hr, hh, rfl, .illegalCommand, op, idx, by decide, rfl, rfl⟩
  · rcases exec_latch_or_raise he with ⟨hf, hhalt⟩ | ⟨e, hne, rfl⟩
    · simp [hf, hhalt] at hchange
    · exact .inr ⟨hr, hh, rfl, e, i.op, i.idx, hne, rfl, rfl⟩

/-- Settles O18: the frame that all commands share. -/
theorem startFrame : Obligations.StartFrame :=
  fun _ _ _ _ _ _ _ h => exec_commonFrame h

/-- Settles O22: the common frame, and `appendRow_slotFrame` for the slot itself. -/
theorem appendRowFrame : Obligations.AppendRowFrame := by
  intro idx c s t h
  obtain ⟨hlen, hother, hcmd, hreset, hcap, hlatch⟩ := exec_commonFrame h
  exact ⟨hlen, hother, hcmd, hreset, hcap, hlatch, fun sl hs => appendRow_slotFrame h hs⟩

/-- Settles O28: by `execAll_sessionCommands`, the induction on the rows. -/
theorem sessionFillsThePlaneRowByRow : Obligations.SessionFillsThePlaneRowByRow := by
  intro idx d qt rows s sl hh hs hempty hcap hrows hfit
  obtain ⟨t, sl', ht, hht, hst, hsl', -⟩ :=
    execAll_sessionCommands (qt := qt) hh hs hempty ((exceedsCapacity_eq_false_iff _ _).2 hcap) hrows hfit
  exact ⟨t, sl', ht, hht, hst, hsl'.active, hsl'.cursor, hsl'.len, fun o _ => hsl'.read o⟩

/-- Settles O35: the common frame, and the drained slot keeps cursor, descriptor and table. -/
theorem getResultFrame : Obligations.GetResultFrame := by
  intro idx s t h
  obtain ⟨hlen, hother, hcmd, hreset, hcap, hlatch⟩ := exec_commonFrame h
  exact ⟨hlen, hother, hcmd, hreset, hcap, hlatch,
    fun sl hs => ⟨drainedSlot sl, getResult_slotFrame h hs, rfl, rfl, rfl⟩⟩

/-- Settles O44: the invariant gives every active slot a descriptor and a table. -/
theorem appendRowWithoutSessionStops : Obligations.AppendRowWithoutSessionStops := by
  intro idx c s sl hs ha hlack
  exact ⟨exec_appendRow_stops c hs ha hlack, fun hi => (hi.slotInv sl (List.mem_of_getElem? hs)).not_lacking ha hlack⟩

/-- Settles O46: an error sends its status word alone; what an accepted command sends is `Accepted.response_eq`. -/
theorem oneResponsePerCommand : Obligations.OneResponsePerCommand := by
  intro i s t hh h
  rcases exec_cases h with ⟨e, hne, rfl⟩ | ⟨sl, -, ha⟩
  · exact ⟨e, [], rfl, .inl rfl, by simp [hne]⟩
  · obtain ⟨sl', ws, rfl, hws⟩ := ha.response_eq
    exact ⟨.ok, ws, rfl, hws.imp_right fun hi => ⟨rfl, hi⟩, by simp [hh]⟩

/-- Settles O47: `exec_slots_of_ne` for what the command writes, and `exec_congr` for what the command depends on. -/
theorem commandsSeeOnlyTheirSlot : Obligations.CommandsSeeOnlyTheirSlot := by
  intro i s s' t hlen hcap hslot h
  refine ⟨fun j hj => exec_slots_of_ne h hj, ?_⟩
  rcases exec_congr hcap hslot h with ⟨e, -, rfl, h'⟩ | ⟨sl, sl', ws, hs, rfl, h', -⟩
  · exact ⟨_, _, h', hslot.symm, rfl, rfl, .inr ⟨rfl, rfl, rfl⟩⟩
  · have hs' : s'.slot? i.idx = some sl := hslot.symm.trans hs
    refine ⟨_, ws, h', ?_, rfl, rfl, .inl ⟨rfl, rfl, rfl, rfl⟩⟩
    exact (State.slot?_setSlot_self hs' sl').trans (State.slot?_setSlot_self hs sl').symm

/-- Settles O48: states that agree but for the stale fields of an inactive slot still do after a command
(`State.StaleEquiv.exec_next`). -/
theorem staleFieldsAreUnobservable : Obligations.StaleFieldsAreUnobservable := by
  intro i j sl cursor desc qt s t hs ha h
  have hset := State.staleEquiv_set (sl' := { sl with cursor := cursor, desc := desc, qt := qt }) hs rfl rfl
  obtain ⟨t', h', heq⟩ := hset.exec_next hs ha h
  obtain ⟨slj, slj', hslj, hslj', hb, hact⟩ := heq.slot
  exact ⟨t', slj, slj', h', heq.respPort, heq.fault, heq.halted, heq.others, hslj, hslj', hb, hact⟩

/-- Settles O49: by induction on the commands; each is one step that leaves the words behind it
(`step_hostWrite_encode`). -/
theorem portCommandsRunInOrder : Obligations.PortCommandsRunInOrder := by
  intro is
  induction is with
  | nil =>
    intro s t _ _ _ _ h _
    rwa [show encodeAll [] = [] from rfl, s.hostWrite_nil]
  | cons i rest ih =>
    intro s t hwf hr hh hp h ht
    obtain ⟨u, hu, hrest⟩ := execAll_cons_inv hh h
    obtain ⟨hcmd, hreset, -⟩ := exec_frame hu
    have hstep : step (s.hostWrite (encodeAll (i :: rest))) = .next (u.hostWrite (encodeAll rest)) :=
      step_hostWrite_encode (hwf i List.mem_cons_self) hr hh hp hu _
    rw [List.length_cons, stepN_succ_next _ hstep]
    exact ih u t (fun j hj => hwf j (List.mem_cons_of_mem _ hj)) (hreset.trans hr) (halted_of_execAll hrest ht)
      (hcmd.trans hp) hrest ht

/-- Settles O51: a step commutes with a write (`step_hostWrite`) and with a read (`step_unread`). -/
theorem hostMayWriteAheadAndReadAtAnyTime : Obligations.HostMayWriteAheadAndReadAtAnyTime := by
  intro s t hr h
  refine ⟨fun ws hd => step_hostWrite hr h hd ws, fun w s' hread => ?_⟩
  obtain rfl := State.eq_unread_of_hostRead hread
  obtain ⟨u, rfl, hu⟩ := step_unread (s := s') hr h
  exact ⟨u, u.hostRead_unread w, hu⟩

/-- Settles O7: the step's last case, `step_command`. -/
theorem stepRunsTheDecodedCommand : Obligations.StepRunsTheDecodedCommand :=
  fun _ _ _ hr hh hd => step_command hr hh hd

/-- Settles O13: every slot of `takeReset` is `Slot.atReset`. -/
theorem assertedResetIsTaken : Obligations.AssertedResetIsTaken := by
  intro s
  rw [step_hostReset, List.map_const']
  rfl

/-- Settles O14: every slot is `Slot.atReset`, and their number is in its range (`maxComponents_range`). -/
theorem resetStateValues : Obligations.ResetStateValues := by
  obtain ⟨h1, h2⟩ := maxComponents_range
  refine ⟨?_, ?_, State.forall_slots_resetOf ⟨rfl, rfl, rfl, rfl, rfl, rfl⟩ _ _, rfl, rfl, rfl, rfl⟩
  · simpa [State.reset] using h1
  · simpa [State.reset] using h2

end Machine
end Sys2Proof
end

section
/-!
PROOFS. The statements of plane memory and of units that share none: the blocks of a row in any order
(`placeBlocks_perm`), a data response read back word by word (`Machine/Operands.lean`'s packing undone), and systems of
units, where what a move means for the unit at one place is said once (`System.Takes.at_place`).
-/

namespace Sys2Proof.Machine

/-! ### The order of a row's blocks -/

/-- Rule R63: an offset reads the one sample that goes there, or, where none goes, what it held; neither depends on the
order. -/
theorem placeBlocks_perm {w v cur : Nat} (f : Nat → SampleBlock) {p : Plane} {order order' : List Nat}
    (hwf : p.wf = true) (hfit : cur + w * v * 64 ≤ p.len.toNat) (hlt : ∀ b ∈ order, b < w * v)
    (hperm : order.Perm order') : placeBlocks w cur f order p = placeBlocks w cur f order' p := by
  refine Plane.ext_read (wf_placeBlocks w cur f order hwf) (wf_placeBlocks w cur f order' hwf) (by simp) fun o => ?_
  by_cases hsample : ∃ b ∈ order, ∃ k : Fin 64, sampleOffset w cur b k = o
  · obtain ⟨b, hb, k, rfl⟩ := hsample
    have hw : 0 < w := Nat.pos_of_mul_pos_right (Nat.zero_lt_of_lt (hlt b hb))
    have hin : sampleOffset w cur b k < p.len.toNat := (sampleOffset_lt cur (hlt b hb) k.isLt).2.trans_le hfit
    rw [read_placeBlocks f k hw hwf hb hin, read_placeBlocks f k hw hwf (hperm.mem_iff.1 hb) hin]
  · have hmiss : ∀ b ∈ order, ∀ k : Fin 64, sampleOffset w cur b k ≠ o := fun b hb k e => hsample ⟨b, hb, k, e⟩
    rw [read_placeBlocks_of_ne w cur f order p hmiss,
      read_placeBlocks_of_ne w cur f order' p fun b hb => hmiss b (hperm.mem_iff.2 hb)]

/-! ### A data response -/

@[simp] theorem toNat_lengthLow (len : Offset) : (lengthLow len).toNat = len.toNat % 2 ^ 32 := by
  simp [lengthLow]

@[simp] theorem toNat_lengthHigh (len : Offset) : (lengthHigh len).toNat = len.toNat / 2 ^ 32 := by
  have := len.isLt
  simp only [lengthHigh, BitVec.toNat_setWidth, BitVec.extractLsb'_toNat, Nat.shiftRight_eq_div_pow]
  omega

/-- Rules R54, R82: byte `j` of data word `k` is plane byte `4k + j`. -/
theorem byteOfWord_dataWord (p : Plane) (k : Nat) {j : Nat} (hj : j < 4) :
    byteOfWord (dataWord p k) j = p.read (4 * k + j) := by
  match j with
  | 0 => exact byteOfWord_packBytes_0 ..
  | 1 => exact byteOfWord_packBytes_1 ..
  | 2 => exact byteOfWord_packBytes_2 ..
  | 3 => exact byteOfWord_packBytes_3 ..

theorem length_dataResponse (op : BitVec 8) (idx : Index) (p : Plane) :
    (dataResponse op idx p).length = 3 + p.len.toNat / 4 := by
  simp only [dataResponse, List.length_cons, List.length_map, List.length_range]
  omega

/-- The data words follow the status word and the two words of the length. -/
theorem dataResponse_getD_data (op : BitVec 8) (idx : Index) {p : Plane} {k : Nat} (hk : k < p.len.toNat / 4) :
    (dataResponse op idx p).getD (3 + k) 0#32 = dataWord p k := by
  rw [Nat.add_comm 3 k]
  simp [dataResponse, hk]

/-! ### Units side by side -/

/-- The state of a unit after its turn: it stays as it is where its step has no next state (log entry 14). -/
def State.afterTurn (s : State) : State :=
  match step s with
  | .next t => t
  | _ => s

/-- A turn of unit `j` is its own turn at place `j` of the list (rules R68, R178). -/
theorem System.stepUnit_eq_modify (sys : System) (j : Nat) :
    sys.stepUnit j = { units := sys.units.modify j State.afterTurn } := by
  rw [List.modify_eq_set_getElem?, System.stepUnit]
  cases hu : sys.units[j]? with
  | none => rfl
  | some u =>
    obtain ⟨hlt, rfl⟩ := List.getElem?_eq_some_iff.1 hu
    cases hst : step sys.units[j] <;> simp [State.afterTurn, hst]

/-- A move of one unit of a system, seen from place `j`: the move itself at its own place, and `idle` at any other. -/
theorem System.Takes.at_place {i j : Nat} {m : Move} {sys sys' : System} {s : State} (h : System.Takes i m sys sys')
    (hs : sys.units[j]? = some s) :
    ∃ t, sys'.units[j]? = some t ∧ Move.Takes (if i = j then m else .idle) s t := by
  obtain ⟨u, t, hu, hm, rfl⟩ := h
  by_cases hij : i = j
  · subst hij
    obtain rfl : u = s := Option.some.inj (hu.symm.trans hs)
    obtain ⟨hlt, -⟩ := List.getElem?_eq_some_iff.1 hs
    exact ⟨t, List.getElem?_set_self hlt, by rwa [if_pos rfl]⟩
  · rw [if_neg hij]
    exact ⟨s, (List.getElem?_set_ne hij).trans hs, rfl⟩

/-- In a run of a system, the place of a unit holds one for ever. -/
theorem System.IsRun.exists_unit {σ : Nat → System} {who : Nat → Nat} {mv : Nat → Move} (h : System.IsRun σ who mv)
    {j : Nat} {u : State} (hu : (σ 0).units[j]? = some u) (n : Nat) : ∃ s, (σ n).units[j]? = some s := by
  induction n with
  | zero => exact ⟨u, hu⟩
  | succ n ih =>
    obtain ⟨s, hs⟩ := ih
    obtain ⟨t, ht, -⟩ := (h n).at_place hs
    exact ⟨t, ht⟩

/-- In a run of a system, the states of the unit at one place are a run of that unit (rule R178). -/
theorem System.IsRun.unit_isRun {σ : Nat → System} {who : Nat → Nat} {mv : Nat → Move} (h : System.IsRun σ who mv)
    {j : Nat} {τ : Nat → State} (hτ : ∀ n, (σ n).units[j]? = some (τ n)) :
    Machine.IsRun τ (System.movesOf j who mv) := by
  intro n
  obtain ⟨t, ht, hm⟩ := (h n).at_place (hτ n)
  obtain rfl : τ (n + 1) = t := Option.some.inj ((hτ (n + 1)).symm.trans ht)
  exact hm

/-! ### The obligations -/

/-- Settles O24: the blocks of the row are those below `w * v`, and `placeBlocks_perm` is for any order of them. -/
theorem blockOrderDoesNotMatter : Obligations.BlockOrderDoesNotMatter :=
  fun _ _ _ f _ _ hwf hfit hperm =>
    placeBlocks_perm f hwf hfit (fun _ hb => List.mem_range.1 (hperm.mem_iff.1 hb)) hperm

/-- Settles O33: the two words of the length are its remainder and quotient by 2^32, and a data word is read back by
`byteOfWord_dataWord`. -/
theorem dataResponseCarriesEveryByte : Obligations.DataResponseCarriesEveryByte := by
  intro idx p
  refine ⟨length_dataResponse _ idx p, rfl, ?_, fun k j hk hj => ?_⟩
  · change (lengthLow p.len).toNat + 2 ^ 32 * (lengthHigh p.len).toNat = p.len.toNat
    rw [toNat_lengthLow, toNat_lengthHigh, Nat.mod_add_div]
  · rw [dataResponse_getD_data _ idx hk, byteOfWord_dataWord p k hj]

/-- Settles O52: turns at two different places of a list are independent (`System.stepUnit_eq_modify`). -/
theorem unitsAreIndependent : Obligations.UnitsAreIndependent := by
  intro sys j k hjk
  simp only [System.stepUnit_eq_modify]
  exact ⟨List.getElem?_modify_ne _ _ hjk, congrArg System.mk (List.modify_modify_ne _ _ _ hjk)⟩

/-- Settles O55: the place holds a unit for ever (`exists_unit`), and its states are a run (`unit_isRun`); a system's
fairness is that of each of its units. -/
theorem systemRunIsARunOfEachUnit : Obligations.SystemRunIsARunOfEachUnit := by
  intro σ who mv h j u hu
  choose τ hτ using h.exists_unit hu
  exact ⟨τ, Option.some.inj ((hτ 0).symm.trans hu), hτ, h.unit_isRun hτ, fun hfair => hfair j τ hτ⟩

end Sys2Proof.Machine
end

section
/-!
PROOFS. The encoding's statements: the words a command is written in and read back from, commands given by their bits,
and what reading them leads to: a step always has a next state, a run over finitely many words ends, and in a weakly
fair run the head command gets its turn. The decoder is read through `decode_command_cases` (`Laws/Encoding.lean`), the
step through `step_cases` (`Laws/Step.lean`).
-/

namespace Sys2Proof

/-! ### A decoded command encodes to its own words -/

/-- Every command but an odd-length APPEND_ROW encodes to the very words it was decoded from (rules R73 to R77, R79). -/
theorem encode_of_decode {ws : List Word} {i : Instr} {n : Nat} (h : decode ws = .command i n)
    (heven : ∀ idx c, i = .appendRow idx c → c.length % 2 = 0) : encode i = ws.take n := by
  obtain ⟨w0, rest, rfl, hr, hcase⟩ := decode_command_cases h
  have hw0 : commandWord (fieldOp w0) (fieldIdx w0) = w0 := commandWord_fields hr
  rcases hcase with ⟨ho, rfl, rfl⟩ | ⟨ho, w1, w2, table, rfl, hl, h2, rfl, rfl⟩ |
    ⟨ho, w1, payload, rfl, hl, rfl, rfl⟩ <;> rw [ho] at hw0
  · simp [encode, hw0]
  · simp [encode, hw0, vsfWord_field h2, tableWords_tableOfWords hl]
  · have hlen : (unpackCoefs w1.toNat payload).length = w1.toNat := length_unpackCoefs hl
    have hcount : w1.toNat % 2 = 0 := hlen ▸ heven _ _ rfl
    simp [encode, hw0, hlen, packCoefs_unpackCoefs hl hcount, Nat.add_comm 2]

/-! ### Odd rows -/

/-- An even number of coefficients fills whole words, so the coefficients behind them are read from the words behind
theirs (rule R76). -/
theorem unpackCoefs_packCoefs_add {c : List Coef} (heven : c.length % 2 = 0) (n : Nat) (rest : List Word) :
    unpackCoefs (c.length + n) (packCoefs c ++ rest) = c ++ unpackCoefs n rest := by
  induction c using packCoefs.induct with
  | case1 => simp [packCoefs]
  | case2 a => simp at heven
  | case3 a b t ih =>
    have ht : t.length % 2 = 0 := by simp only [List.length_cons] at heven; omega
    rw [show (a :: b :: t).length + n = t.length + n + 2 by simp only [List.length_cons]; omega]
    simp [packCoefs, unpackCoefs, ih ht]

/-! ### A command given by its bits -/

/-- The length of a decoded command is rule R79's, from its first two words. -/
theorem commandLength_of_decode {ws : List Word} {i : Instr} {n : Nat} (h : decode ws = .command i n) :
    commandLength (ws.getD 0 0#32) (ws.getD 1 0#32) = n := by
  obtain ⟨w0, rest, rfl, -, ⟨ho, -, rfl⟩ | ⟨ho, w1, w2, table, rfl, -, -, -, rfl⟩ |
    ⟨ho, w1, payload, rfl, -, -, rfl⟩⟩ := decode_command_cases h
  · simp [commandLength, ho, opStart, opAppendRow, opGetResult]
  · simp [commandLength, ho]
  · simp [commandLength, ho, opStart, opAppendRow]

theorem one_le_commandLength (w0 w1 : Word) : 1 ≤ commandLength w0 w1 := by
  unfold commandLength
  split
  · omega
  · split <;> omega

/-- A command of one word has its length whatever word follows. -/
theorem commandLength_congr {w0 w1 w1' : Word} (h : 1 < commandLength w0 w1 → w1' = w1) :
    commandLength w0 w1' = commandLength w0 w1 := by
  by_cases hlt : 1 < commandLength w0 w1
  · rw [h hlt]
  · have hs : fieldOp w0 ≠ opStart := fun ho => hlt (by simp [commandLength, ho])
    have ha : fieldOp w0 ≠ opAppendRow := fun ho => hlt (by simp [commandLength, ho, opStart, opAppendRow]; omega)
    simp [commandLength, hs, ha]

/-- Rule R79's length from the first two words of `nbits` bits `w`: how many words `commandOfBits` answers. -/
def lengthOfBits (nbits w : Nat) : Nat :=
  commandLength ((wordsOfBits nbits w).getD 0 0#32) ((wordsOfBits nbits w).getD 1 0#32)

theorem commandOfBits_eq (nbits w : Nat) :
    commandOfBits nbits w = (wordsOfBits nbits w).take (lengthOfBits nbits w) ++
      List.replicate (lengthOfBits nbits w - (wordsOfBits nbits w).length) 0#32 := rfl

theorem length_commandOfBits (nbits w : Nat) : (commandOfBits nbits w).length = lengthOfBits nbits w := by
  rw [commandOfBits_eq, List.length_append, List.length_take, List.length_replicate]
  omega

/-- The words of a command given by its bits are the words of the bits, and 0 past them. -/
theorem getD_commandOfBits {nbits w k : Nat} (hk : k < lengthOfBits nbits w) :
    (commandOfBits nbits w).getD k 0#32 = (wordsOfBits nbits w).getD k 0#32 := by
  rw [commandOfBits_eq]
  rcases Nat.lt_or_ge k (wordsOfBits nbits w).length with hin | hout
  · rw [List.getD_append _ _ _ _ (by rw [List.length_take]; omega), List.getD_eq_getElem?_getD,
      List.getElem?_take_of_lt hk, List.getD_eq_getElem?_getD]
  · rw [List.getD_append_right _ _ _ _ (by rw [List.length_take]; omega), List.getD_eq_default _ _ hout]
    exact List.getD_replicate _ (by rw [List.length_take]; omega)

/-- A command given by its bits takes all the words that stand for it. -/
theorem length_commandOfBits_of_decode {nbits w : Nat} {i : Instr} {n : Nat}
    (h : decode (commandOfBits nbits w) = .command i n) : (commandOfBits nbits w).length = n := by
  have hpos : 1 ≤ lengthOfBits nbits w := one_le_commandLength _ _
  rw [length_commandOfBits, ← commandLength_of_decode h, getD_commandOfBits hpos]
  exact (commandLength_congr getD_commandOfBits).symm

/-- The command that the bits give is decoded from their words (rule R80). -/
theorem decode_commandOfBits {nbits w : Nat} {i : Instr} (h : decodeTableWord nbits w = some i) :
    decode (commandOfBits nbits w) = .command i (commandOfBits nbits w).length := by
  unfold decodeTableWord at h
  split at h
  · rename_i i' n hd
    obtain rfl : i' = i := Option.some.inj h
    rw [length_commandOfBits_of_decode hd, hd]
  · simp at h

namespace Machine

/-! ### The next state -/

/-- Where every slot satisfies its invariant a command has a next state: the one stop, on an active slot without a
session, is ruled out (rules R25, R166). -/
theorem exec_next_of_slotInv {s : State} (h : ∀ sl ∈ s.slots, sl.Inv s.planeBytesMax) (i : Instr) :
    ∃ t, exec i s = .next t := by
  by_contra hstop
  obtain ⟨idx, c, sl, -, hs, ha, hlack, -⟩ := exec_not_next (not_exists.1 hstop)
  exact (h sl (State.mem_of_slot?_eq_some hs)).not_lacking ha hlack

theorem State.Inv.exists_step {s : State} (hi : s.Inv) : ∃ t, step s = .next t := by
  cases hr : s.resetIn with
  | true => exact ⟨s.takeReset, by simp [step, hr]⟩
  | false =>
    cases hh : s.halted with
    | true => exact ⟨s, step_halted hr hh⟩
    | false =>
      cases hd : decode s.cmdPort with
      | incomplete => exact ⟨s, step_incomplete hr hd⟩
      | illegal op idx n => exact ⟨_, step_illegal hr hh hd⟩
      | command i n =>
        obtain ⟨t, ht⟩ := exec_next_of_slotInv (s := s.consume n) hi.slotInv i
        exact ⟨t, (step_command hr hh hd).trans ht⟩

/-! ### Runs that end -/

/-- The unit has nothing left to take: it is halted, or the words left are no whole command (rules R170, R194). -/
def State.Ended (s : State) : Prop := s.halted = true ∨ decode s.cmdPort = .incomplete

/-- The state shows an error: its code is in the latch and its status word is the last response word (rule R165). -/
def State.ShowsError (s : State) : Prop :=
  ∃ (e : Status) (op : BitVec 8) (idx : Index), e ≠ .ok ∧ s.fault = e.code ∧
    s.respPort.getLast? = some (statusWord e op idx)

/-- What every state of a run over words the host has written satisfies, when no reset is asserted and no response is
read (rule R194). -/
structure State.InRun (s : State) : Prop where
  inv : s.Inv
  noReset : s.resetIn = false
  onError : s.halted = true → s.ShowsError

theorem State.inRun_resetOf_hostWrite {n : Nat} (cap : Option Nat) (ws : List Word) (h1 : 1 ≤ n) (h2 : n ≤ 256) :
    ((State.resetOf n cap).hostWrite ws).InRun where
  inv := have hi := State.inv_resetOf cap h1 h2
    ⟨hi.slotCount, hi.slotInv, hi.faultLegal, hi.haltedIffFault⟩
  noReset := rfl
  onError := by simp

theorem step_resetIn {s t : State} (hr : s.resetIn = false) (h : step s = .next t) : t.resetIn = false := by
  rcases step_cases h with ⟨-, rfl⟩ | ⟨-, -, rfl⟩ | ⟨-, -, ⟨-, rfl⟩ | ⟨op, idx, n, -, rfl⟩ | ⟨i, n, -, he⟩⟩
  · rfl
  · exact hr
  · exact hr
  · exact hr
  · exact (exec_frame he).2.1.trans hr

theorem State.InRun.of_step {s t : State} (hs : s.InRun) (h : step s = .next t) : t.InRun where
  inv := State.inv_of_step hs.inv h
  noReset := step_resetIn hs.noReset h
  onError hh := by
    by_cases hsame : s.halted = true
    · rw [step_halted hs.noReset hsame, Host.Outcome.next.injEq] at h
      exact h ▸ hs.onError hsame
    · have hne : t.halted ≠ s.halted := fun he => hsame (he ▸ hh)
      rcases faultLatchChangesOnlyByResetOrFirstError s t h (.inr hne) with
        ⟨-, -, hh'⟩ | ⟨-, -, -, e, op, idx, he, hf, hresp⟩
      · simp [hh] at hh'
      · exact ⟨e, op, idx, he, hf, by simp [hresp]⟩

theorem State.InRun.step_of_ended {s : State} (hs : s.InRun) (he : s.Ended) : step s = .next s :=
  he.elim (step_halted hs.noReset) (step_incomplete hs.noReset)

/-- A step that does not wait takes at least one word (rules R79, R80). -/
theorem length_cmdPort_lt_of_step {s t : State} (hr : s.resetIn = false) (hne : ¬ s.Ended) (h : step s = .next t) :
    t.cmdPort.length < s.cmdPort.length := by
  obtain ⟨hh, hd⟩ := not_or.1 hne
  obtain ⟨hpos, hle⟩ := decode_consumed s.cmdPort
  have htaken : t.cmdPort = s.cmdPort.drop (decode s.cmdPort).consumed := by
    rcases step_cases h with ⟨hr', -⟩ | ⟨-, hh', -⟩ | ⟨-, -, ⟨hd', -⟩ | ⟨op, idx, n, hd', rfl⟩ | ⟨i, n, hd', he⟩⟩
    · simp [hr] at hr'
    · exact absurd hh' hh
    · exact absurd hd' hd
    · rw [hd']; rfl
    · rw [hd']; exact (exec_frame he).1
  have := hpos.resolve_left hd
  rw [htaken, List.length_drop]
  omega

/-- As many steps as there are words on the port lead to where the unit has nothing left to take (rule R194). -/
theorem State.InRun.exists_stepN_ended {n : Nat} {s : State} (hs : s.InRun) (hn : s.cmdPort.length ≤ n) :
    ∃ t, stepN n s = .next t ∧ t.InRun ∧ t.Ended := by
  induction n generalizing s with
  | zero =>
    have hnil : s.cmdPort = [] := List.length_eq_zero_iff.1 (Nat.le_zero.1 hn)
    exact ⟨s, rfl, hs, .inr (by rw [hnil]; rfl)⟩
  | succ n ih =>
    by_cases he : s.Ended
    · exact ⟨s, stepN_of_fixed (hs.step_of_ended he) _, hs, he⟩
    · obtain ⟨u, hu⟩ := hs.inv.exists_step
      have hlt := length_cmdPort_lt_of_step hs.noReset he hu
      rw [stepN_succ_next n hu]
      exact ih (hs.of_step hu) (by omega)

theorem State.Inv.fault_of_not_halted {s : State} (hi : s.Inv) (hh : s.halted = false) : s.fault = 0#8 := by
  by_contra hf
  simp [hi.haltedIffFault.2 hf] at hh

theorem State.outcome_halted {s : State} (hh : s.halted = true) : s.outcome = .faulted s.fault := by
  simp [State.outcome, hh]

theorem State.outcome_complete {s : State} (hh : s.halted = false) (hp : s.cmdPort = []) : s.outcome = .complete := by
  simp [State.outcome, hh, hp]

theorem State.outcome_waiting {s : State} (hh : s.halted = false) (hp : s.cmdPort ≠ [])
    (hd : decode s.cmdPort = .incomplete) : s.outcome = .waiting := by
  obtain ⟨w, ws, hw⟩ := List.exists_cons_of_ne_nil hp
  rw [hw] at hd
  simp [State.outcome, hh, hw, hd]

/-! ### Runs that go on -/

/-- While neither the unit steps nor the host resets, a decided command stays the head of the port, with the slots, the
reset input and the halt as they are (rules R40, R41). -/
theorem IsRun.keeps {σ : Nat → State} {mv : Nat → Move} (hrun : IsRun σ mv) {n m : Nat} (hnm : n ≤ m)
    (hmv : ∀ j, n ≤ j → j < m → mv j ≠ .step ∧ mv j ≠ .reset) (hd : decode (σ n).cmdPort ≠ .incomplete) :
    (σ m).slots = (σ n).slots ∧ (σ m).resetIn = (σ n).resetIn ∧ (σ m).halted = (σ n).halted ∧
      decode (σ m).cmdPort = decode (σ n).cmdPort := by
  induction m, hnm using Nat.le_induction with
  | base => exact ⟨rfl, rfl, rfl, rfl⟩
  | succ m hnm ih =>
    obtain ⟨hslots, hreset, hhalt, hdec⟩ := ih fun j h1 h2 => hmv j h1 (by omega)
    obtain ⟨hstep, hres⟩ := hmv m hnm (by omega)
    obtain ⟨hslots', hreset', hhalt', hdec'⟩ := (hrun m).keeps hstep hres
    exact ⟨hslots'.trans hslots, hreset'.trans hreset, hhalt'.trans hhalt, (hdec' (hdec ▸ hd)).trans hdec⟩

/-- A due command gets the unit's turn or a reset comes first: were there neither, it would be due for ever, against
weak fairness (rule R198). -/
theorem WeaklyFair.exists_first_turn {σ : Nat → State} {mv : Nat → Move} (hfair : WeaklyFair σ mv)
    (hrun : IsRun σ mv) {n : Nat} (hdue : (σ n).commandDue = true) :
    ∃ m, n ≤ m ∧ (∀ j, n ≤ j → j < m → mv j ≠ .step ∧ mv j ≠ .reset) ∧ (mv m = .step ∨ mv m = .reset) := by
  have hex : ∃ m, n ≤ m ∧ (mv m = .step ∨ mv m = .reset) := by
    by_contra hnone
    have hmv : ∀ j, n ≤ j → mv j ≠ .step ∧ mv j ≠ .reset := fun j hj =>
      not_or.1 fun hm => hnone ⟨j, hj, hm⟩
    have halways : ∀ m, n ≤ m → (σ m).turnDue = true := fun m hm => by
      obtain ⟨hr, hh, hd⟩ := (State.commandDue_iff _).1 hdue
      obtain ⟨-, hr', hh', hd'⟩ := hrun.keeps hm (fun j hj _ => hmv j hj) hd
      exact State.turnDue_of_commandDue ((State.commandDue_iff _).2 ⟨hr'.trans hr, hh'.trans hh, hd' ▸ hd⟩)
    obtain ⟨m, hm, hstep⟩ := hfair n halways
    exact (hmv m hm).1 hstep
  classical
  obtain ⟨hm, hturn⟩ := Nat.find_spec hex
  exact ⟨Nat.find hex, hm, fun j hj hlt => not_or.1 fun h => Nat.find_min hex hlt ⟨hj, h⟩, hturn⟩

/-! ### The obligations -/

/-- Settles O1: `decode_encode_append`, command by command. -/
theorem decodeReadsBackEncode : Obligations.DecodeReadsBackEncode :=
  fun _ more hwf => decode_encode_append hwf more

/-- Settles O2: each field packs back to its word (`encode_of_decode`). -/
theorem encodeGivesBackDecodedWords : Obligations.EncodeGivesBackDecodedWords :=
  fun _ _ _ h heven => encode_of_decode h heven

/-- Settles O4: the even part fills whole words (`unpackCoefs_packCoefs_add`), and of the last word the low half
alone is read. -/
theorem oddPaddingIsIgnored : Obligations.OddPaddingIsIgnored := by
  intro idx c last pad more heven hlen
  have hn : (BitVec.ofNat 32 (c.length + 1)).toNat = c.length + 1 := Nat.mod_eq_of_lt hlen
  have hunpack : unpackCoefs (c.length + 1) (packCoefs c ++ pairWord last pad :: more) = c ++ [last] := by
    rw [unpackCoefs_packCoefs_add heven]
    simp [unpackCoefs]
  have hthere : ¬ (packCoefs c ++ pairWord last pad :: more).length < coefWords (c.length + 1) := by
    simp only [List.length_append, length_packCoefs, List.length_cons, coefWords]
    omega
  change decode (commandWord opAppendRow idx :: _ :: (packCoefs c ++ pairWord last pad :: more)) = _
  rw [decode_appendRow (fieldRsv0_commandWord _ _) (fieldOp_commandWord _ _), decodeAppendRow, hn, if_neg hthere,
    hunpack, fieldIdx_commandWord]
  rfl

/-- Settles O8: the placed command takes exactly the words placed (`decode_commandOfBits`). -/
theorem placedCommandRunsNext : Obligations.PlacedCommandRunsNext := by
  intro s nbits w i h
  have hd := decode_commandOfBits h
  have hport : decode (s.withFetchWord nbits w).cmdPort = .command i (commandOfBits nbits w).length :=
    (decode_append_of (by simp [hd]) s.cmdPort).trans hd
  have htaken : (s.withFetchWord nbits w).consume (commandOfBits nbits w).length =
      { s with halted := false, resetIn := false } := by
    simp [State.withFetchWord, State.consume]
  rw [step_command (s := s.withFetchWord nbits w) rfl rfl hport, htaken]

/-- Settles O42: an active slot of the invariant has its session, so no command stops (`exec_next_of_slotInv`). -/
theorem everyStepAnswersANextState : Obligations.EveryStepAnswersANextState :=
  fun _ hi => hi.exists_step

/-- Settles O50: the run ends (`exists_stepN_ended`), halted on an error, or with no word left, or on words that are no
whole command. -/
theorem everyRunEndsInOneOfThreeOutcomes : Obligations.EveryRunEndsInOneOfThreeOutcomes := by
  intro slots cap ws h1 h2
  have hstart := State.inRun_resetOf_hostWrite cap ws h1 h2
  obtain ⟨t, ht, hrun, hend⟩ := hstart.exists_stepN_ended (n := ws.length) (by simp)
  refine ⟨t, ht, ?_⟩
  cases hh : t.halted with
  | true =>
    obtain ⟨e, op, idx, he, hf, hlast⟩ := hrun.onError hh
    exact .inr (.inl ⟨e, op, idx, he, hf ▸ State.outcome_halted hh, rfl, hf, hlast⟩)
  | false =>
    have hf : t.fault = 0#8 := hrun.inv.fault_of_not_halted hh
    by_cases hp : t.cmdPort = []
    · exact .inl ⟨State.outcome_complete hh hp, rfl, hf, hp⟩
    · have hd : decode t.cmdPort = .incomplete := hend.resolve_left (by simp [hh])
      exact .inr (.inr ⟨State.outcome_waiting hh hp hd, rfl, hf, hp, hd, hrun.step_of_ended hend⟩)

/-- Settles O53: the first turn or reset (`WeaklyFair.exists_first_turn`) finds the command still at the head
(`IsRun.keeps`); the step's response is O46's. -/
theorem fairRunExecutesTheHeadCommand : Obligations.FairRunExecutesTheHeadCommand := by
  intro σ mv hrun hfair n hr hh hd
  obtain ⟨m, hnm, hmv, hturn⟩ := hfair.exists_first_turn hrun ((State.commandDue_iff _).2 ⟨hr, hh, hd⟩)
  refine ⟨m, hnm, hmv, hturn.symm.imp_right fun hstep => ?_⟩
  obtain ⟨hslots, hr', hh', hd'⟩ := hrun.keeps hnm hmv hd
  have htake : Move.Takes .step (σ m) (σ (m + 1)) := hstep ▸ hrun m
  refine ⟨hstep, hslots, ?_⟩
  rcases step_cases htake with ⟨hr'', -⟩ | ⟨-, hh'', -⟩ | ⟨-, -, ⟨hinc, -⟩ | ⟨op, idx, k, hill, ht⟩ | ⟨i, k, hcom, he⟩⟩
  · simp [hr', hr] at hr''
  · simp [hh', hh] at hh''
  · exact absurd (hd'.symm.trans hinc) hd
  · exact .inr ⟨op, idx, k, hd'.symm.trans hill, ht⟩
  · obtain ⟨e, ws, hresp, -⟩ := oneResponsePerCommand i ((σ m).consume k) _ (hh'.trans hh) he
    exact .inl ⟨i, k, hd'.symm.trans hcom, he, e, ws, hresp⟩

/-- Settles O5: the decoder run on the words. -/
theorem writtenWordsDecodeAsTheyStand : Obligations.WrittenWordsDecodeAsTheyStand :=
  ⟨by decide, by decide, by decide, by decide, by decide, by decide⟩

/-- Settles O6: the encoder run on the lines' commands. -/
theorem assembledLinesEncodeAsWorked : Obligations.AssembledLinesEncodeAsWorked :=
  ⟨by decide, by decide, by decide⟩

end Machine
end Sys2Proof
end

section
/-!
PROOFS. START (`40_slot_registry.md`): each of its three errors, what an accepted START leaves in its slot, and that a
slot's plane stays until GET_RESULT takes it (rules R103 to R109).
-/

namespace Sys2Proof.Machine

/-! ### The checks of START -/

section StartChecks

variable {idx : Index} {s : State} (w h : Half) (v : BitVec 8) (qt : QTable)

theorem exec_start_invalidIndex (hs : s.slot? idx = none) :
    exec (.start idx w h v qt) s = .next (s.raise .invalidIndex opStart idx) := by
  simp only [exec, execStart, startNext, hs]

theorem exec_start_slotBusy {sl : Slot} (hs : s.slot? idx = some sl) (hb : sl.buffer.len ≠ 0#40) :
    exec (.start idx w h v qt) s = .next (s.raise .slotBusy opStart idx) := by
  rw [exec_start_of_slot hs, if_pos hb]

theorem exec_start_capacityExceeded {sl : Slot} (hs : s.slot? idx = some sl) (hb : sl.buffer.len = 0#40)
    (hc : exceedsCapacity s.planeBytesMax (planeBytes w h) = true) :
    exec (.start idx w h v qt) s = .next (s.raise .capacityExceeded opStart idx) := by
  rw [exec_start_of_slot hs, if_neg (not_not.2 hb), if_pos hc]

end StartChecks

/-- A command after which the unit is not halted was accepted. -/
theorem exec_accepted {i : Instr} {s t : State} (h : exec i s = .next t) (ht : t.halted = false) :
    ∃ sl, s.slot? i.idx = some sl ∧ Accepted i s sl t := by
  rcases exec_cases h with ⟨e, -, rfl⟩ | hacc
  · simp at ht
  · exact hacc

/-- An accepted START leaves the fresh session in its slot (rule R104). -/
theorem exec_start_slot {idx : Index} {w h : Half} {v : BitVec 8} {qt : QTable} {s t : State}
    (he : exec (.start idx w h v qt) s = .next t) (ht : t.halted = false) :
    t.slot? idx = some (startedSlot w h v qt) := by
  obtain ⟨sl, hs, -, -, rfl⟩ := exec_accepted he ht
  exact State.slot?_setSlot_self hs _

/-! ### A plane stays until GET_RESULT -/

/-- The slot that `idx` names exists and its buffer is not empty. -/
def State.HoldsPlane (s : State) (idx : Index) : Prop := ∃ sl, s.slot? idx = some sl ∧ sl.buffer.len ≠ 0#40

theorem State.holdsPlane_of_start {idx : Index} {w h : Half} {v : BitVec 8} {qt : QTable} {s t : State}
    (hpos : 0 < w.toNat * h.toNat) (he : exec (.start idx w h v qt) s = .next t) (ht : t.halted = false) :
    t.HoldsPlane idx := by
  refine ⟨_, exec_start_slot he ht, fun hzero => ?_⟩
  have hlen : (startedSlot w h v qt).buffer.len.toNat = w.toNat * h.toNat * 64 := Plane.toNat_len_zeros w h
  simp only [hzero, BitVec.toNat_zero] at hlen
  omega

/-- Only GET_RESULT empties a slot's buffer: START is not accepted on a plane, and a row keeps the plane's length
(rules R103, R131). -/
theorem Accepted.holdsPlane {i : Instr} {idx : Index} {s t : State} {sl : Slot} (hi : i ≠ .getResult idx)
    (hp : s.HoldsPlane idx) (hs : s.slot? i.idx = some sl) (ha : Accepted i s sl t) : t.HoldsPlane idx := by
  obtain ⟨sl₀, hs₀, hb⟩ := hp
  by_cases hidx : i.idx = idx
  · subst hidx
    obtain rfl : sl₀ = sl := Option.some.inj (hs₀.symm.trans hs)
    cases i with
    | start idx w h v qt => exact absurd ha.1 hb
    | appendRow idx c =>
      obtain ⟨d, qt, -, -, -, -, -, rfl⟩ := ha
      have hlen : (appendedSlot idct d qt c sl₀).buffer.len = sl₀.buffer.len := len_placeRow ..
      exact ⟨_, State.slot?_setSlot_self hs _, hlen ▸ hb⟩
    | getResult idx => exact absurd rfl hi
  · obtain ⟨sl', ws, rfl⟩ := ha.next_eq
    exact ⟨sl₀, (State.slot?_setSlot_of_ne s (Ne.symm hidx) sl').trans hs₀, hb⟩

/-! ### The obligations -/

/-- Settles O16: one lemma for each check that fails, and `exec_start_ok` when all pass. -/
theorem startChecksThenOpensASession : Obligations.StartChecksThenOpensASession := by
  intro idx w h v qt s
  refine ⟨fun hlen => ?_, fun sl hs hb => ?_, fun sl most hs hb hmax hlt => ?_, fun sl hs hb hfit => ?_⟩
  · exact exec_start_invalidIndex w h v qt (List.getElem?_eq_none hlen)
  · exact exec_start_slotBusy w h v qt hs hb
  · have hc : exceedsCapacity s.planeBytesMax (planeBytes w h) = true := by
      rw [hmax]
      exact decide_eq_true hlt
    exact exec_start_capacityExceeded w h v qt hs hb hc
  · exact exec_start_ok hs hb ((exceedsCapacity_eq_false_iff _ _).2 hfit)

/-- Settles O17: the slot holds `startedSlot`, whose plane is `Plane.zeros`. -/
theorem startedPlaneIsZeroAndExact : Obligations.StartedPlaneIsZeroAndExact :=
  fun _ w h _ _ _ _ _ he ht => ⟨_, exec_start_slot he ht, Plane.toNat_len_zeros w h, fun o _ => Plane.read_zeros _ o⟩

/-- Settles O19: the first START leaves a plane, the commands between keep it (`Accepted.holdsPlane`), and START on a
plane is SlotBusy. -/
theorem secondStartIsSlotBusy : Obligations.SecondStartIsSlotBusy := by
  intro idx w h w' h' v v' qt qt' between s t hpos hh hno he ht
  obtain ⟨u, hu, hrest⟩ := execAll_cons_inv hh he
  have hplane : u.HoldsPlane idx := State.holdsPlane_of_start hpos hu (halted_of_execAll hrest ht)
  have hkeep : t.HoldsPlane idx :=
    execAll_induct (fun i hi _ _ _ hp hs ha => ha.holdsPlane (ne_of_mem_of_not_mem hi hno) hp hs) hplane hrest ht
  obtain ⟨sl, hs, hb⟩ := hkeep
  exact exec_start_slotBusy w' h' v' qt' hs hb

/-- Settles O20: a grid with no block has a plane of 0 bytes, within any capacity, so both STARTs pass their checks. -/
theorem zeroSizeSessionRestarts : Obligations.ZeroSizeSessionRestarts := by
  intro idx w h w' h' v v' qt qt' s sl hh hs hb hzero hfit
  have hn : planeBytes w h = 0 := by
    rcases hzero with rfl | rfl <;> simp [planeBytes]
  have hfirst := exec_start_ok (v := v) (qt := qt) hs hb (hn ▸ exceedsCapacity_zero s.planeBytesMax)
  have hempty : (startedSlot w h v qt).buffer.len = 0#40 := by
    simp [startedSlot, hn, Plane.zeros]
  have hsecond := exec_start_ok (v := v') (qt := qt') (exec_start_slot hfirst hh) hempty
    ((exceedsCapacity_eq_false_iff _ _).2 hfit)
  have hrun := (execAll_cons (rest := [.start idx w' h' v' qt']) hh hfirst).trans (execAll_cons hh hsecond)
  exact ⟨_, hrun, hh, List.append_assoc .., _, exec_start_slot hsecond hh, rfl, Plane.toNat_len_zeros w' h'⟩

end Sys2Proof.Machine
end

section
/-!
PROOFS. APPEND_ROW (`41_row_append.md`): each of its errors, where an accepted row's samples stand, rows of no blocks,
the transform on products and on zeros, the bounds of the geometry, and sessions that fill their plane (rules R120 to
R139).
-/

namespace Sys2Proof.Machine

/-! ### The checks of APPEND_ROW -/

theorem exec_appendRow_invalidIndex {idx : Index} {s : State} (c : List Coef) (hs : s.slot? idx = none) :
    exec (.appendRow idx c) s = .next (s.raise .invalidIndex opAppendRow idx) := by
  simp only [exec, execAppendRow, appendRowWith, hs]

section SessionChecks

variable {idx : Index} {c : List Coef} {s : State} {sl : Slot} {d : Desc} {qt : QTable} (hs : s.slot? idx = some sl)
  (ha : sl.active = true) (hd : sl.desc = some d) (hq : sl.qt = some qt)

include hs ha hd hq

theorem exec_appendRow_of_session :
    exec (.appendRow idx c) s = .next (appendToSession idct idx c sl d qt s) := by
  simp only [exec, execAppendRow, appendRowWith, hs, ha, hd, hq, Bool.true_eq_false, if_false]

theorem exec_appendRow_rowLengthMismatch (hl : c.length ≠ d.rowBytes) :
    exec (.appendRow idx c) s = .next (s.raise .rowLengthMismatch opAppendRow idx) := by
  rw [exec_appendRow_of_session hs ha hd hq, appendToSession, if_pos hl]

theorem exec_appendRow_outOfBounds (hl : c.length = d.rowBytes)
    (hb : sl.buffer.len.toNat < sl.cursor.toNat + d.rowBytes) :
    exec (.appendRow idx c) s = .next (s.raise .outOfBounds opAppendRow idx) := by
  rw [exec_appendRow_of_session hs ha hd hq, appendToSession, if_neg (not_not.2 hl), if_pos hb]

end SessionChecks

/-! ### Where the samples of a row stand -/

/-- Rule R130: the samples of a row go to every offset of the row's range, and to no other. -/
theorem exists_sampleOffset_eq_iff {w v cur o : Nat} :
    (∃ b, b < w * v ∧ ∃ k : Fin 64, sampleOffset w cur b k = o) ↔ cur ≤ o ∧ o < cur + w * v * 64 := by
  constructor
  · rintro ⟨b, hb, k, rfl⟩
    exact sampleOffset_lt cur hb k.isLt
  · rintro ⟨hle, hlt⟩
    obtain ⟨rel, rfl⟩ := Nat.exists_eq_add_of_le hle
    have hrel : rel < w * v * 64 := Nat.lt_of_add_lt_add_left hlt
    have hw : 0 < w := Nat.pos_of_ne_zero fun h => by simp [h] at hrel
    exact ⟨blockAt w rel, blockAt_lt hw hrel, positionAt w rel, sampleOffset_blockAt hw cur rel⟩

/-- An accepted row puts output position `k` of block `b` at its offset (rules R126, R131). -/
theorem read_placeRow_sampleOffset (t : CoefBlock → QTable → SampleBlock) {d : Desc} (qt : QTable) {cur : Nat}
    (c : List Coef) {p : Plane} (hwf : p.wf = true) (hfit : cur + d.rowBytes ≤ p.len.toNat) {b : Nat}
    (hb : b < d.blockCount) (k : Fin 64) :
    (placeRow t d qt cur c p).read (sampleOffset d.gridWidth.toNat cur b k) = (rowBlock t c qt b)[k] := by
  have hw : 0 < d.gridWidth.toNat := Nat.pos_of_mul_pos_right (Nat.zero_lt_of_lt hb)
  exact read_placeBlocks _ k hw hwf (List.mem_range.2 hb) ((sampleOffset_lt cur hb k.isLt).2.trans_le hfit)

/-! ### Rows of no blocks -/

theorem State.setSlot_of_slot? {s : State} {idx : Index} {sl : Slot} (hs : s.slot? idx = some sl) :
    s.setSlot idx sl = s := by
  obtain ⟨hlt, rfl⟩ := List.getElem?_eq_some_iff.1 hs
  simp [State.setSlot]

theorem Desc.rowBytes_of_noBlocks {d : Desc} (h : d.blockCount = 0) : d.rowBytes = 0 := by
  rw [Desc.rowBytes, h, Nat.zero_mul]

/-- A row of no blocks writes nothing and moves the cursor nowhere (rule R138). -/
theorem appendedSlot_of_noBlocks (t : CoefBlock → QTable → SampleBlock) {d : Desc} (qt : QTable) (c : List Coef)
    (sl : Slot) (h : d.blockCount = 0) : appendedSlot t d qt c sl = sl := by
  simp [appendedSlot, placeRow, placeBlocks, Desc.rowBytes_of_noBlocks h, h]

theorem execAll_replicate_noBlocks {idx : Index} {s : State} {sl : Slot} {d : Desc} {qt : QTable}
    (hh : s.halted = false) (hs : s.slot? idx = some sl) (ha : sl.active = true) (hd : sl.desc = some d)
    (hq : sl.qt = some qt) (hzero : d.blockCount = 0) (hcur : sl.cursor.toNat ≤ sl.buffer.len.toNat) (n : Nat) :
    execAll (List.replicate n (.appendRow idx [])) s =
      .next (s.respond (List.replicate n (statusWord .ok opAppendRow idx))) := by
  have hrow := Desc.rowBytes_of_noBlocks hzero
  induction n generalizing s with
  | zero => simp [State.respond]
  | succ n ih =>
    have hone : exec (.appendRow idx []) s = .next (s.respond [statusWord .ok opAppendRow idx]) := by
      rw [exec_appendRow_ok (c := []) hs ha hd hq hrow.symm (by rwa [hrow]), appendedSlot_of_noBlocks _ _ _ _ hzero,
        State.setSlot_of_slot? hs]
    rw [List.replicate_succ, execAll_cons hh hone, ih (s := s.respond _) hh hs]
    simp [State.respond, List.replicate_succ]

/-! ### The transform -/

/-- Rule R122: zero coefficients have zero products, whatever the table. -/
theorem idct_zeros (qt : QTable) : idct (Vector.replicate 64 0#16) qt = Vector.replicate 64 Config.flatZero := by
  have hzero : dequantize (Vector.replicate 64 0#16) qt = Vector.replicate 64 0 := by
    apply Vector.ext
    simp [dequantize]
  rw [idct, inverseTransform, if_pos hzero]

/-- Rule R120: a signed 16-bit number times an unsigned one is below 2^31 in absolute value. -/
theorem abs_toInt_mul_toNat_lt (c q : BitVec 16) : |c.toInt * (q.toNat : Int)| < 2 ^ 31 := by
  have hc : |c.toInt| ≤ 2 ^ 15 := abs_le.2 ⟨BitVec.le_toInt c, (BitVec.toInt_lt (x := c)).le⟩
  have hq : |(q.toNat : Int)| ≤ 2 ^ 16 - 1 := by
    have := q.isLt
    rw [Nat.abs_cast]
    omega
  calc |c.toInt * (q.toNat : Int)| = |c.toInt| * |(q.toNat : Int)| := abs_mul ..
    _ ≤ 2 ^ 15 * (2 ^ 16 - 1) := mul_le_mul hc hq (abs_nonneg _) (by decide)
    _ < 2 ^ 31 := by decide

/-! ### The geometry of a plane and its rows -/

/-- `n` MCU rows are `n * v` block rows. -/
theorem Desc.mul_rowBytes (d : Desc) (n : Nat) :
    n * d.rowBytes = n * d.verticalSamplingFactor.toNat * (d.gridWidth.toNat * 64) := by
  rw [Desc.rowBytes, Desc.blockCount]
  ring

/-- A plane is `h` block rows. -/
theorem Desc.planeBytes_eq (d : Desc) : d.planeBytes = d.gridHeight.toNat * (d.gridWidth.toNat * 64) := by
  rw [Desc.planeBytes, Machine.planeBytes]
  ring

/-- MCU rows fit in the plane when their block rows do (rule R139). -/
theorem Desc.mul_rowBytes_le {d : Desc} {n : Nat} (h : n * d.verticalSamplingFactor.toNat ≤ d.gridHeight.toNat) :
    n * d.rowBytes ≤ d.planeBytes := by
  rw [d.mul_rowBytes, d.planeBytes_eq]
  exact Nat.mul_le_mul_right _ h

/-- MCU rows overrun the plane when their block rows do (rule R167). -/
theorem Desc.planeBytes_lt_mul_rowBytes {d : Desc} {n : Nat} (hw : 0 < d.gridWidth.toNat)
    (h : d.gridHeight.toNat < n * d.verticalSamplingFactor.toNat) : d.planeBytes < n * d.rowBytes := by
  rw [d.mul_rowBytes, d.planeBytes_eq]
  exact Nat.mul_lt_mul_of_pos_right h (Nat.mul_pos hw (by decide))

/-- MCU rows whose block rows are the grid's fill the plane (rule R139). -/
theorem Desc.mul_rowBytes_eq {d : Desc} {n : Nat} (h : n * d.verticalSamplingFactor.toNat = d.gridHeight.toNat) :
    n * d.rowBytes = d.planeBytes := by
  rw [d.mul_rowBytes, d.planeBytes_eq, h]

/-- `n` MCU rows are `8vn` plane lines (rule R137). -/
theorem Desc.mul_rowBytes_eq_lines (d : Desc) (n : Nat) :
    n * d.rowBytes = 8 * d.verticalSamplingFactor.toNat * n * d.lineStride := by
  rw [Desc.rowBytes, Desc.blockCount, Desc.lineStride]
  ring

theorem Desc.blockCount_le (d : Desc) : d.blockCount ≤ 65535 * 255 :=
  Nat.mul_le_mul (Nat.le_of_lt_succ d.gridWidth.isLt) (Nat.le_of_lt_succ d.verticalSamplingFactor.isLt)

theorem Desc.planeBytes_le (d : Desc) : d.planeBytes ≤ 65535 * 65535 * 64 :=
  Nat.mul_le_mul_right 64
    (Nat.mul_le_mul (Nat.le_of_lt_succ d.gridWidth.isLt) (Nat.le_of_lt_succ d.gridHeight.isLt))

/-! ### A session of zeros -/

theorem blockCoefs_zeroCoefs (n b : Nat) : blockCoefs (zeroCoefs n) b = Vector.replicate 64 0#16 := by
  apply Vector.ext
  intro j hj
  rw [blockCoefs, Vector.getElem_ofFn, Vector.getElem_replicate, zeroCoefs, List.getD_eq_getElem?_getD,
    List.getElem?_getD_replicate_default_eq]

/-- In the range of rows of zeros every byte is `FLAT_ZERO` (rule R122). -/
theorem sessionByte_zeros {d : Desc} {rows o : Nat} (qt : QTable) (n : Nat) (h : o < rows * d.rowBytes) :
    sessionByte d qt (List.replicate rows (zeroCoefs n)) o = Config.flatZero := by
  have hrow : o / d.rowBytes < rows := Nat.div_lt_of_lt_mul (by rwa [Nat.mul_comm])
  have hget : (List.replicate rows (zeroCoefs n)).getD (o / d.rowBytes) [] = zeroCoefs n := List.getD_replicate _ hrow
  rw [sessionByte, if_pos (by rwa [List.length_replicate]), hget, blockCoefs_zeroCoefs, idct_zeros]
  simp

theorem lengthLow_eq_ofNat (len : Offset) : lengthLow len = BitVec.ofNat 32 len.toNat :=
  BitVec.eq_of_toNat_eq (by simp)

theorem lengthHigh_eq_ofNat (len : Offset) : lengthHigh len = BitVec.ofNat 32 (len.toNat / 2 ^ 32) := by
  have := len.isLt
  apply BitVec.eq_of_toNat_eq
  rw [toNat_lengthHigh, BitVec.toNat_ofNat, Nat.mod_eq_of_lt (by omega)]

/-- The response to GET_RESULT on a plane that holds one byte `v` throughout (rule R82). -/
theorem dataResponse_of_flat (op : BitVec 8) (idx : Index) {p : Plane} {v : Byte}
    (h : ∀ o, o < p.len.toNat → p.read o = v) :
    dataResponse op idx p = statusWord .ok op idx :: BitVec.ofNat 32 p.len.toNat ::
      BitVec.ofNat 32 (p.len.toNat / 2 ^ 32) :: List.replicate (p.len.toNat / 4) (packBytes v v v v) := by
  have hword : ∀ k ∈ List.range (p.len.toNat / 4), dataWord p k = packBytes v v v v := by
    intro k hk
    have := List.mem_range.1 hk
    rw [dataWord, h _ (by omega), h _ (by omega), h _ (by omega), h _ (by omega)]
  rw [dataResponse, lengthLow_eq_ofNat, lengthHigh_eq_ofNat, List.map_congr_left hword, List.map_const',
    List.length_range]

/-! ### The obligations -/

/-- Settles O21: one lemma for each check that fails; all passed, the slot holds `appendedSlot`, whose plane reads as
`placeRow` says, inside the row's range and outside. -/
theorem appendRowChecksThenPlacesEveryBlock : Obligations.AppendRowChecksThenPlacesEveryBlock := by
  intro idx c s
  refine ⟨fun hlen => ?_, fun sl hs ha => ?_, fun sl d qt hs ha hd hq hl => ?_,
    fun sl d qt hs ha hd hq hl hb => ?_, fun sl d qt hs ha hd hq hl hb hwf => ?_⟩
  · exact exec_appendRow_invalidIndex c (List.getElem?_eq_none hlen)
  · exact exec_appendRow_inactive c hs ha
  · exact exec_appendRow_rowLengthMismatch hs ha hd hq hl
  · rw [hl] at hb
    exact exec_appendRow_outOfBounds hs ha hd hq hl hb
  · replace hl : c.length = d.rowBytes := hl
    rw [hl] at hb ⊢
    refine ⟨appendedSlot idct d qt c sl, exec_appendRow_ok hs ha hd hq hl hb, cursor_appendedSlot hb, rfl, rfl, ha,
      len_placeRow .., fun b hblt k => ?_, fun o ho => read_placeRow_outside idct d qt _ c _ ho⟩
    rw [Nat.add_assoc, ← sampleOffset_eq]
    exact read_placeRow_sampleOffset idct qt c hwf hb hblt k

/-- Settles O23: the offsets are those of the row's range (`exists_sampleOffset_eq_iff`), and no two samples share one
(`sampleOffset_inj`). -/
theorem rowOffsetsAreABijection : Obligations.RowOffsetsAreABijection := by
  intro w v cur
  refine ⟨fun b hb k => sampleOffset_lt cur hb k.isLt, fun b b' hb _ k k' h => ?_,
    fun o hle hlt => exists_sampleOffset_eq_iff.2 ⟨hle, hlt⟩⟩
  exact sampleOffset_inj (Nat.pos_of_mul_pos_right (Nat.zero_lt_of_lt hb)) h

/-- Settles O25: `w = 0` or `v = 0` makes the block count 0, and a row of no blocks changes only the response port. -/
theorem emptyRowsChangeNothing : Obligations.EmptyRowsChangeNothing := by
  intro n idx s sl d qt hh hs ha hd hq hzero hcur
  have hblocks : d.blockCount = 0 := by
    rcases hzero with h | h <;> simp [Desc.blockCount, h]
  exact execAll_replicate_noBlocks hh hs ha hd hq hblocks hcur n

/-- Settles O27: equal products are equal arguments of the inverse transform. -/
theorem transformSeesDequantizedProductsOnly : Obligations.TransformSeesDequantizedProductsOnly := by
  refine ⟨fun coefs coefs' qt qt' h => ?_, fun coefs qt k => abs_toInt_mul_toNat_lt _ _⟩
  have hprod : dequantize coefs qt = dequantize coefs' qt' := congrArg Vector.ofFn (funext h)
  rw [idct, idct, hprod]

/-- Settles O29: `h div v` rows are at most `h` block rows, and one row more is over `h`. -/
theorem sessionHasRoomForItsRowsOnly : Obligations.SessionHasRoomForItsRowsOnly := by
  intro idx d qt rows extra s sl hh hs hempty hcap hw hv hrows hlen hextra
  have hfit : rows.length * d.rowBytes ≤ d.planeBytes := Desc.mul_rowBytes_le (hrows ▸ Nat.div_mul_le_self ..)
  have hover : d.planeBytes < rows.length * d.rowBytes + d.rowBytes := by
    rw [← Nat.succ_mul]
    refine Desc.planeBytes_lt_mul_rowBytes hw ?_
    rw [hrows, Nat.mul_comm]
    exact Nat.lt_mul_div_succ _ hv
  obtain ⟨t, sl', ht, hht, hst, hsl', -⟩ :=
    execAll_sessionCommands (qt := qt) hh hs hempty ((exceedsCapacity_eq_false_iff _ _).2 hcap) hlen hfit
  refine ⟨t, sl', ht, hht, hst, hsl'.cursor, hsl'.len, fun hdvd => ?_, ?_⟩
  · apply BitVec.eq_of_toNat_eq
    rw [hsl'.cursor, hsl'.len]
    exact Desc.mul_rowBytes_eq (hrows ▸ Nat.div_mul_cancel (Nat.dvd_of_mod_eq_zero hdvd))
  · exact exec_appendRow_outOfBounds hst hsl'.active hsl'.hasDesc hsl'.hasTable hextra (by
      rwa [hsl'.cursor, hsl'.len])

/-- Settles O30: the row's range begins at line `8vk` and ends at line `8v(k+1)`, and `y` is the line of the offset. -/
theorem rowWritesExactlyItsLines : Obligations.RowWritesExactlyItsLines := by
  intro d k x y hx
  have hline : (y * d.lineStride + x) / d.lineStride = y := by
    rw [Nat.mul_comm, Nat.mul_add_div (by omega), Nat.div_eq_of_lt hx, Nat.add_zero]
  have hrange : (k * d.rowBytes ≤ y * d.lineStride + x ∧ y * d.lineStride + x < (k + 1) * d.rowBytes) ↔
      8 * d.verticalSamplingFactor.toNat * k ≤ y ∧ y < 8 * d.verticalSamplingFactor.toNat * (k + 1) := by
    rw [d.mul_rowBytes_eq_lines, d.mul_rowBytes_eq_lines, ← Nat.le_div_iff_mul_le (by omega),
      ← Nat.div_lt_iff_lt_mul (by omega), hline]
  rw [← hrange, Nat.succ_mul]
  exact exists_sampleOffset_eq_iff

/-- Settles O31: the fields' widths bound the products; a sample's offset is in the row's range. -/
theorem geometryNeverWraps : Obligations.GeometryNeverWraps := by
  intro d
  have hblocks := d.blockCount_le
  have hplane := d.planeBytes_le
  have hrow : d.rowBytes = d.blockCount * 64 := rfl
  refine ⟨hblocks, by omega, by omega, hplane, by omega, fun cursor hcur => ⟨by omega, fun hfit b hb k => ?_⟩⟩
  exact (sampleOffset_lt cursor hb k.isLt).2.trans_le hfit

/-- Settles O38: the session of `execAll_sessionCommands`, whose rows of zeros fill the plane, and the response of
GET_RESULT on a plane of one byte. -/
theorem zeroSessionReturnsAFlatPlane : Obligations.ZeroSessionReturnsAFlatPlane := by
  intro idx d qt rows s sl hh hs hempty hcap hrows
  have hfill : rows * d.rowBytes = d.planeBytes := Desc.mul_rowBytes_eq hrows
  have hlen : ∀ c ∈ List.replicate rows (zeroCoefs d.rowBytes), c.length = d.rowBytes := by
    intro c hc
    rw [List.eq_of_mem_replicate hc, zeroCoefs, List.length_replicate]
  obtain ⟨t, sl', ht, hht, hst, hsl', hresp⟩ :=
    execAll_sessionCommands (qt := qt) hh hs hempty ((exceedsCapacity_eq_false_iff _ _).2 hcap) hlen
      (by rw [List.length_replicate, hfill])
  have hflat : ∀ o, o < sl'.buffer.len.toNat → sl'.buffer.read o = Config.flatZero := by
    intro o ho
    rw [hsl'.read]
    exact sessionByte_zeros qt _ (by rwa [hfill, ← hsl'.len])
  have hrun := (execAll_append (js := [.getResult idx]) ht hht).trans (execAll_cons hht (exec_getResult_ok hst))
  refine ⟨_, hrun, hht, ?_⟩
  rw [State.respond_respPort, State.setSlot_respPort, hresp, dataResponse_of_flat _ _ hflat, hsl'.len,
    List.length_replicate]
  rfl

/-- Settles O26: `idct_zeros` at one position. -/
theorem zeroBlockIsFlat : Obligations.ZeroBlockIsFlat := by
  intro qt k
  rw [idct_zeros]
  simp

end Sys2Proof.Machine
end

section
/-!
PROOFS. GET_RESULT (`42_result_extraction.md`): its one error, the response on an empty buffer, a second GET_RESULT in a
row, and extraction in mid-session (rules R150 to R156).
-/

namespace Sys2Proof.Machine

/-! ### The check of GET_RESULT -/

theorem exec_getResult_invalidIndex {idx : Index} {s : State} (hs : s.slot? idx = none) :
    exec (.getResult idx) s = .next (s.raise .invalidIndex opGetResult idx) := by
  simp only [exec, execGetResult, getResultNext, hs]

/-! ### An empty buffer -/

/-- The response on an empty buffer is the status word and the length 0 in two words (rule R152). -/
theorem dataResponse_of_len_zero (op : BitVec 8) (idx : Index) {p : Plane} (h : p.len = 0#40) :
    dataResponse op idx p = [statusWord .ok op idx, 0#32, 0#32] := by
  simp [dataResponse, h, lengthLow, lengthHigh]

/-- GET_RESULT on a slot that one has drained changes nothing but the response port (rules R151, R152). -/
theorem exec_getResult_drained {idx : Index} {s : State} {sl : Slot} (hs : s.slot? idx = some (drainedSlot sl)) :
    exec (.getResult idx) s = .next (s.respond [statusWord .ok opGetResult idx, 0#32, 0#32]) := by
  have hagain : drainedSlot (drainedSlot sl) = drainedSlot sl := rfl
  rw [exec_getResult_ok hs, hagain, State.setSlot_of_slot? hs, dataResponse_of_len_zero opGetResult idx rfl]

/-- The session that GET_RESULT took is closed: a row after it is NotStarted (rules R151, R154). -/
theorem exec_appendRow_after_getResult {idx : Index} {s t : State} {sl : Slot} (c : List Coef)
    (he : exec (.getResult idx) s = .next t) (hs : s.slot? idx = some sl) :
    exec (.appendRow idx c) t = .next (t.raise .notStarted opAppendRow idx) :=
  exec_appendRow_inactive c (getResult_slotFrame he hs) rfl

/-! ### The obligations -/

/-- Settles O32: the one check, and `exec_getResult_ok` when it passes. -/
theorem getResultReturnsThePlane : Obligations.GetResultReturnsThePlane := by
  intro idx s
  refine ⟨fun hlen => ?_, fun sl hs => ?_⟩
  · exact exec_getResult_invalidIndex (List.getElem?_eq_none hlen)
  · exact exec_getResult_ok hs

/-- Settles O34: an empty plane's response has no data word, and the first GET_RESULT leaves a drained slot for the
second (`exec_getResult_drained`). -/
theorem emptyResultIsThreeWords : Obligations.EmptyResultIsThreeWords := by
  intro idx s sl hh hs
  have hfirst := exec_getResult_ok hs
  refine ⟨fun hempty => ⟨_, hfirst, hh, ?_⟩, ?_⟩
  · rw [dataResponse_of_len_zero opGetResult idx hempty]
    rfl
  · have hsecond := exec_getResult_drained (getResult_slotFrame hfirst hs)
    exact ⟨_, _, hfirst, hsecond, hh, rfl, rfl⟩

/-- Settles O37: the session of `execAll_sessionCommands`, whose plane GET_RESULT sends and whose slot it drains. -/
theorem midSessionResultIsThePlaneAsItStands : Obligations.MidSessionResultIsThePlaneAsItStands := by
  intro idx d qt rows s sl hh hs hempty hcap hrows hfit
  obtain ⟨t, sl', ht, hht, hst, hsl', hresp⟩ :=
    execAll_sessionCommands (qt := qt) hh hs hempty ((exceedsCapacity_eq_false_iff _ _).2 hcap) hrows hfit
  have hget := exec_getResult_ok hst
  have hrun := (execAll_append (js := [.getResult idx]) ht hht).trans (execAll_cons hht hget)
  refine ⟨_, sl'.buffer, hrun, hht, ?_, hsl'.len, fun o _ => hsl'.read o,
    fun c => exec_appendRow_after_getResult c hget hst⟩
  rw [State.respond_respPort, State.setSlot_respPort, hresp]
  rfl

end Sys2Proof.Machine
end

section
/-!
PROOFS. Errors and waits (`60_exceptions.md`): the illegal encodings and the incomplete commands as the decoder answers
them, a slot whose session is closed until the next START, and the precise error (rules R163, R165, R166, R169, R182).
-/

namespace Sys2Proof

/-! ### Illegal encodings -/

theorem legalOp_eq_false_iff (op : BitVec 8) : legalOp op = false ↔ op ∉ [0x01#8, 0x02#8, 0x03#8] := by
  simp [legalOp, opStart, opAppendRow, opGetResult, and_assoc]

/-- A bad command word is illegal whatever follows it (rules R80, R84). -/
theorem decode_illegal {w0 : Word} (h : legalOp (fieldOp w0) = false ∨ fieldRsv0 w0 ≠ 0#16) (rest : List Word) :
    decode (w0 :: rest) = .illegal (fieldOp w0) (fieldIdx w0) 1 :=
  if_pos h

/-- A whole START with reserved bits set in word 2 is illegal (rules R80, R84). -/
theorem decodeStart_illegal {table : List Word} {w2 : Word} (idx : Index) (w1 : Word) (hl : 32 ≤ table.length)
    (h2 : fieldRsv2 w2 ≠ 0#24) : decodeStart idx (w1 :: w2 :: table) = .illegal opStart idx 35 := by
  rw [decodeStart, if_neg (Nat.not_lt.2 hl), if_pos h2]

/-! ### Incomplete commands -/

/-- START waits for its 34 further words (rules R79, R80). -/
theorem decodeStart_incomplete (idx : Index) {rest : List Word} (hl : rest.length < 34) :
    decodeStart idx rest = .incomplete := by
  rcases decodeStart_cases idx rest with ⟨h, -⟩ | ⟨w1, w2, table, rfl, htable, -⟩
  · exact h
  · simp only [List.length_cons] at hl
    omega

/-- APPEND_ROW waits for the words that carry its coefficients (rules R79, R80). -/
theorem decodeAppendRow_incomplete (idx : Index) {w1 : Word} {payload : List Word}
    (hl : payload.length < coefWords w1.toNat) : decodeAppendRow idx (w1 :: payload) = .incomplete :=
  if_pos hl

namespace Machine

/-- The state an illegal command leaves, by the words left on the port (rules R165, R169). -/
theorem State.takeIllegal_eq {s : State} {n : Nat} {left : List Word} (op : BitVec 8) (idx : Index)
    (h : s.cmdPort.drop n = left) :
    s.takeIllegal op idx n = { s with
      cmdPort := left
      respPort := s.respPort ++ [statusWord .illegalCommand op idx]
      fault := Status.illegalCommand.code
      halted := true } := by
  subst h
  rfl

/-! ### A closed session -/

/-- The slot that `idx` names exists and has no open session. -/
def State.SessionClosed (s : State) (idx : Index) : Prop := ∃ sl, s.slot? idx = some sl ∧ sl.active = false

theorem State.sessionClosed_resetOf {n : Nat} {idx : Index} (cap : Option Nat) (h : idx.toNat < n) :
    (State.resetOf n cap).SessionClosed idx :=
  ⟨Slot.atReset, by rw [State.slot?_resetOf, if_pos h], rfl⟩

theorem State.sessionClosed_of_getResult {idx : Index} {s t : State} (he : exec (.getResult idx) s = .next t)
    (ht : t.halted = false) : t.SessionClosed idx := by
  obtain ⟨sl, hs, -⟩ := exec_accepted he ht
  exact ⟨drainedSlot sl, getResult_slotFrame he hs, rfl⟩

/-- Only START opens a session: a row is not accepted on a closed one, and GET_RESULT leaves it closed (rule R25). -/
theorem Accepted.sessionClosed {i : Instr} {idx : Index} {s t : State} {sl : Slot}
    (hi : ∀ w h v qt, i ≠ .start idx w h v qt) (hc : s.SessionClosed idx) (hs : s.slot? i.idx = some sl)
    (ha : Accepted i s sl t) : t.SessionClosed idx := by
  obtain ⟨sl₀, hs₀, hclosed⟩ := hc
  by_cases hidx : i.idx = idx
  · subst hidx
    obtain rfl : sl₀ = sl := Option.some.inj (hs₀.symm.trans hs)
    cases i with
    | start idx w h v qt => exact absurd rfl (hi w h v qt)
    | appendRow idx c =>
      obtain ⟨d, qt, hactive, -⟩ := ha
      simp [hclosed] at hactive
    | getResult idx =>
      obtain rfl := ha
      exact ⟨drainedSlot sl₀, State.slot?_setSlot_self hs _, rfl⟩
  · obtain ⟨sl', ws, rfl⟩ := ha.next_eq
    exact ⟨sl₀, (State.slot?_setSlot_of_ne s (Ne.symm hidx) sl').trans hs₀, hclosed⟩

/-- A closed session stays closed over any commands without a START on its index that all succeed. -/
theorem State.SessionClosed.of_execAll {idx : Index} {is : List Instr} {s t : State} (hc : s.SessionClosed idx)
    (hno : ∀ w h v qt, .start idx w h v qt ∉ is) (he : execAll is s = .next t) (ht : t.halted = false) :
    t.SessionClosed idx :=
  execAll_induct
    (fun _ hi _ _ _ hp hs ha => ha.sessionClosed (fun w h v qt => ne_of_mem_of_not_mem hi (hno w h v qt)) hp hs)
    hc he ht

/-- A row on a closed session is NotStarted (rule R163). -/
theorem State.SessionClosed.exec_appendRow {idx : Index} {s : State} (hc : s.SessionClosed idx) (c : List Coef) :
    exec (.appendRow idx c) s = .next (s.raise .notStarted opAppendRow idx) := by
  obtain ⟨sl, hs, ha⟩ := hc
  exact exec_appendRow_inactive c hs ha

/-! ### The obligations -/

/-- Settles O9: a bad command word is decided by itself (`decode_illegal`), a START by its word 2 once it is whole
(`decodeStart_illegal`). -/
theorem illegalCommandHaltsTheUnit : Obligations.IllegalCommandHaltsTheUnit := by
  intro s hr hh
  refine ⟨fun w0 rest hp hbad => ?_, fun w0 w1 w2 rest hp hl hop hrsv0 hrsv2 => ?_⟩
  · have hd : decode s.cmdPort = .illegal (fieldOp w0) (fieldIdx w0) 1 := by
      rw [hp]
      exact decode_illegal (hbad.imp_left (legalOp_eq_false_iff _).2) rest
    have hleft : s.cmdPort.drop 1 = rest := by rw [hp]; rfl
    exact (step_illegal hr hh hd).trans (congrArg _ (State.takeIllegal_eq _ _ hleft))
  · have hd : decode s.cmdPort = .illegal opStart (fieldIdx w0) 35 := by
      rw [hp, decode_start hrsv0 hop]
      exact decodeStart_illegal _ w1 hl hrsv2
    have hleft : s.cmdPort.drop 35 = rest.drop 32 := by rw [hp]; rfl
    exact (step_illegal hr hh hd).trans (congrArg _ (State.takeIllegal_eq _ _ hleft))

/-- Settles O10: a halted unit holds its state, and on each of the other ports the decoder answers that the command is
incomplete. -/
theorem unitWaitsHoldingItsState : Obligations.UnitWaitsHoldingItsState := by
  intro s hr hwait
  rcases hwait with hh | hempty | ⟨w0, rest, hp, hrsv0, ⟨hop, hl⟩ | ⟨hop, rfl | ⟨w1, payload, rfl, hl⟩⟩⟩
  · exact step_halted hr hh
  · exact step_incomplete hr (by rw [hempty]; rfl)
  · exact step_incomplete hr (by rw [hp, decode_start hrsv0 hop, decodeStart_incomplete _ hl])
  · exact step_incomplete hr (by rw [hp, decode_appendRow hrsv0 hop]; rfl)
  · exact step_incomplete hr (by rw [hp, decode_appendRow hrsv0 hop, decodeAppendRow_incomplete _ hl])

/-- Settles O36: reset and GET_RESULT leave the session closed, and the commands between keep it so
(`State.SessionClosed.of_execAll`). -/
theorem appendWithoutASessionIsNotStarted : Obligations.AppendWithoutASessionIsNotStarted := by
  intro idx between c hno
  refine ⟨fun n cap t hn he ht => ?_, fun s t hh he ht => ?_⟩
  · have hreset := State.sessionClosed_resetOf cap hn
    exact (hreset.of_execAll hno he ht).exec_appendRow c
  · obtain ⟨u, hu, hrest⟩ := execAll_cons_inv hh he
    have hdrained := State.sessionClosed_of_getResult hu (halted_of_execAll hrest ht)
    exact (hdrained.of_execAll hno hrest ht).exec_appendRow c

/-- Settles O45: a command that leaves the halt as it was did not fail, and any other only raised an error
(`exec_latch_or_raise`). -/
theorem failedCommandIsPrecise : Obligations.FailedCommandIsPrecise := by
  intro i s t hh he ht
  rcases exec_latch_or_raise he with ⟨-, hsame⟩ | ⟨e, hne, rfl⟩
  · simp [hsame, hh] at ht
  · exact ⟨e, hne, rfl⟩

end Machine
end Sys2Proof
end

section
/-!
PROOFS. That a weakly fair run with no reset exists from every state of the invariant (`70_reset_and_hazards.md`, rule
R198): the run in which the host's writes and the unit's turns alternate.
-/

namespace Sys2Proof.Machine

/-! ### The invariant, write by write and turn by turn -/

/-- The invariant is not about the ports. -/
theorem State.Inv.hostWrite {s : State} (hi : s.Inv) (ws : List Word) : (s.hostWrite ws).Inv :=
  ⟨hi.slotCount, hi.slotInv, hi.faultLegal, hi.haltedIffFault⟩

/-- Under the invariant a turn is a step: the case that leaves a stopped unit as it is does not arise. -/
theorem State.Inv.step_eq_afterTurn {s : State} (hi : s.Inv) : step s = .next s.afterTurn := by
  obtain ⟨t, ht⟩ := hi.exists_step
  rw [State.afterTurn, ht]

theorem State.Inv.afterTurn {s : State} (hi : s.Inv) : s.afterTurn.Inv :=
  State.inv_of_step hi hi.step_eq_afterTurn

/-! ### The alternating run -/

/-- The host's writes and the unit's turns alternate: move `2n` writes `ws n`, move `2n + 1` is a step. -/
def alternatingMoves (ws : Nat → List Word) (n : Nat) : Move :=
  if n % 2 = 0 then .write (ws (n / 2)) else .step

/-- The states that `alternatingMoves ws` leads through from `s`. -/
def alternatingStates (s : State) (ws : Nat → List Word) : Nat → State
  | 0 => s
  | n + 1 =>
    if n % 2 = 0 then (alternatingStates s ws n).hostWrite (ws (n / 2)) else (alternatingStates s ws n).afterTurn

theorem alternatingMoves_even (ws : Nat → List Word) (n : Nat) : alternatingMoves ws (2 * n) = .write (ws n) := by
  simp [alternatingMoves]

theorem alternatingMoves_odd (ws : Nat → List Word) (n : Nat) : alternatingMoves ws (2 * n + 1) = .step :=
  if_neg (by omega)

theorem alternatingMoves_ne_reset (ws : Nat → List Word) (n : Nat) : alternatingMoves ws n ≠ .reset := by
  unfold alternatingMoves
  split <;> simp

theorem State.Inv.alternatingStates {s : State} (hi : s.Inv) (ws : Nat → List Word) (n : Nat) :
    (alternatingStates s ws n).Inv := by
  induction n with
  | zero => exact hi
  | succ n ih =>
    rw [Machine.alternatingStates]
    split
    · exact ih.hostWrite _
    · exact ih.afterTurn

/-- Each move leads to the next state: a write always does, and a turn does by the invariant. -/
theorem State.Inv.isRun_alternating {s : State} (hi : s.Inv) (ws : Nat → List Word) :
    IsRun (Machine.alternatingStates s ws) (alternatingMoves ws) := by
  intro n
  rw [alternatingMoves, Machine.alternatingStates]
  split
  · rfl
  · exact (hi.alternatingStates ws n).step_eq_afterTurn

/-- From every move on the unit takes a turn, due or not. -/
theorem weaklyFair_alternatingMoves (σ : Nat → State) (ws : Nat → List Word) : WeaklyFair σ (alternatingMoves ws) :=
  fun n _ => ⟨2 * n + 1, by omega, alternatingMoves_odd ws n⟩

/-! ### The obligation -/

/-- Settles O54: the alternating run, which the invariant carries on over every turn (`State.Inv.isRun_alternating`). -/
theorem fairRunsExist : Obligations.FairRunsExist :=
  fun s ws hi => ⟨alternatingStates s ws, alternatingMoves ws, rfl, alternatingMoves_even ws,
    alternatingMoves_ne_reset ws, hi.isRun_alternating ws, weaklyFair_alternatingMoves _ ws⟩

end Sys2Proof.Machine
end
